-- ==== Sys2Proof/Word.lean ====
section
/-! DEFINITION. The two widths of this hardware: the 16-bit word of a register, a memory cell and a stack
entry, and the 8-bit character of the two channels (spec/00_scope.md R6, R8). -/
namespace Sys2Proof

/-- A 16-bit unsigned word, bit 0 the least significant (R6 `WORD_BITS`, R8). -/
abbrev Word := BitVec 16

/-- An 8-bit unit: a character of a channel (R6 `IN_CHAR_BITS`, `OUT_CHAR_BITS`), or one byte of a program
image (R52). -/
abbrev Byte := BitVec 8

end Sys2Proof
end

