-- ==== Sys2Proof/Config.lean ====
section
/-! DEFINITION. The sizes of spec/00_scope.md R6. All are fixed by the spec or by a default it gives; there
is no free value, because the spec leaves no result of any instruction undefined. -/
namespace Sys2Proof.Config

/-- `MODULUS`: all arithmetic results are modulo this (R6, R177). -/
@[simp, reducible] def modulus : Nat := 32768

/-- The largest memory address; `MEM_WORDS` is one more (R6, R31). -/
@[simp, reducible] def maxAddress : Nat := 32767

/-- The number of bytes a full memory takes as an image (R261, R262). -/
@[simp, reducible] def imageBytes : Nat := 65536

/-- `REG_BASE`: the first register-reference word (R6, R7). -/
@[simp, reducible] def regBase : Nat := 32768

/-- `NREGS`: the number of registers (R6, R21). -/
@[simp, reducible] def nregs : Nat := 8

/-- `VALUE_MAX`: the largest value a register, a store or the stack takes (R6, R22, R112). -/
@[simp, reducible] def valueMax : Nat := 32775

/-- `IMAGE_FILL`: what memory that no image covered holds, as a byte (R6, R262, decision D2).
DEDUCED for memory before any image is loaded, log 4, unsafe. -/
@[simp, reducible] def imageFill : Byte := 0

/-- The words of the longest instruction: an opcode word and `MAX_ARITY` = 3 operand words (R6, R70). -/
@[simp, reducible] def maxWords : Nat := 4

end Sys2Proof.Config
end

