-- ==== Sys2Proof/Syntax.lean ====
section
/-! DEFINITION. The instructions as syntax: one constructor per row of spec/opcode_table.json (R73), each
operand classified as spec/00_scope.md R7 classifies a word (R76, 90_conflicts.md C4). -/
namespace Sys2Proof

/-- A register number, 0 to 7 (R21). -/
abbrev RegIdx := Fin 8

/-- An operand word, classified (R7, R75). The value of a register operand is not resolved here: that happens
when the instruction executes (R82). -/
inductive Operand where
  /-- a word 0..32767: the 15-bit number itself (R7, R75) -/
  | lit (v : BitVec 15)
  /-- a word 32768..32775: the register `word - 32768` (R7, R75) -/
  | reg (r : RegIdx)
  /-- a word 32776..65535, which is invalid in every operand position (R7, R80); the word itself is kept,
  because the fault it causes reports it (R223) -/
  | invalid (w : Word)
deriving DecidableEq, Repr

/-- The role the opcode gives an operand position (R76). -/
inductive Role where
  | source
  | destination
deriving DecidableEq, Repr

/-- The 22 instructions (R73); `a`, `b`, `c` are the operands in memory order (R10). `inp` is the mnemonic
`in`, a word Lean reserves. -/
inductive Instr where
  | halt
  | set (a b : Operand)
  | push (a : Operand)
  | pop (a : Operand)
  | eq (a b c : Operand)
  | gt (a b c : Operand)
  | jmp (a : Operand)
  | jt (a b : Operand)
  | jf (a b : Operand)
  | add (a b c : Operand)
  | mult (a b c : Operand)
  | mod (a b c : Operand)
  | and (a b c : Operand)
  | or (a b c : Operand)
  | not (a b : Operand)
  | rmem (a b : Operand)
  | wmem (a b : Operand)
  | call (a : Operand)
  | ret
  | out (a : Operand)
  | inp (a : Operand)
  | noop
deriving DecidableEq, Repr

/-- The operands of an instruction in memory order, each with the role the opcode fixes for its position
(R73's table; R76). -/
def Instr.operands : Instr → List (Role × Operand)
  | .halt => []
  | .set a b => [(.destination, a), (.source, b)]
  | .push a => [(.source, a)]
  | .pop a => [(.destination, a)]
  | .eq a b c => [(.destination, a), (.source, b), (.source, c)]
  | .gt a b c => [(.destination, a), (.source, b), (.source, c)]
  | .jmp a => [(.source, a)]
  | .jt a b => [(.source, a), (.source, b)]
  | .jf a b => [(.source, a), (.source, b)]
  | .add a b c => [(.destination, a), (.source, b), (.source, c)]
  | .mult a b c => [(.destination, a), (.source, b), (.source, c)]
  | .mod a b c => [(.destination, a), (.source, b), (.source, c)]
  | .and a b c => [(.destination, a), (.source, b), (.source, c)]
  | .or a b c => [(.destination, a), (.source, b), (.source, c)]
  | .not a b => [(.destination, a), (.source, b)]
  | .rmem a b => [(.destination, a), (.source, b)]
  | .wmem a b => [(.source, a), (.source, b)]
  | .call a => [(.source, a)]
  | .ret => []
  | .out a => [(.source, a)]
  | .inp a => [(.destination, a)]
  | .noop => []

/-- The number of operand words, fixed by the opcode (R70, R74). -/
def Instr.arity (i : Instr) : Nat := i.operands.length

end Sys2Proof
end

