-- ==== Sys2Proof/WellFormed.lean ====
section
/-! DEFINITION. Which instructions are well formed: every operand is legal in its position
(spec/30_encoding.md R77, R79, R80; spec/40_step_cycle.md R106). -/
namespace Sys2Proof

/-- An operand is legal in a source position when it is not an invalid word (R77), and in a destination
position when it names a register (R79). -/
def Operand.legalAs : Role → Operand → Bool
  | .source, .lit _ => true
  | .source, .reg _ => true
  | .source, .invalid _ => false
  | .destination, .lit _ => false
  | .destination, .reg _ => true
  | .destination, .invalid _ => false

/-- Every operand is legal in its position, so that the step raises no `InvalidOperand` (R106). -/
def Instr.wellFormed (i : Instr) : Bool := i.operands.all fun p => p.2.legalAs p.1

/-- The operand is what some word is classified as: an `invalid` operand really holds a word above 32775
(R7's classes are disjoint). The decoder makes no other. -/
def Operand.canonical : Operand → Bool
  | .lit _ => true
  | .reg _ => true
  | .invalid w => decide (32775 < w.toNat)

/-- Every operand of the instruction is canonical: the instruction is one the decoder can make, whether or
not its operands are legal in their positions. -/
def Instr.canonical (i : Instr) : Bool := i.operands.all fun p => p.2.canonical

end Sys2Proof
end

