-- ==== Sys2Proof/Decode.lean ====
section
/-! DEFINITION. The decoder, total on any words or bytes and rejecting by name, and the encoder, both written
from the opcode map of spec/30_encoding.md R73 and the operand classes of spec/00_scope.md R7. -/
namespace Sys2Proof

/-- What the decoder answers for the words from some address on. -/
inductive Decoded where
  /-- an instruction, and the words after its last one (R70) -/
  | ok (i : Instr) (rest : List Word)
  /-- there is no opcode word at all -/
  | noOpcodeWord
  /-- the opcode word is not one of 0..21 (R78) -/
  | invalidOpcode (w : Word)
  /-- the opcode word is legal but fewer than its `arity` operand words follow (R84) -/
  | operandsMissing (arity : Nat)
deriving DecidableEq, Repr

/-- The class of an operand word (R7, R75): a literal keeps its 15 bits, a register reference gives the
register `w - 32768`. -/
def classify (w : Word) : Operand :=
  if w.toNat < Config.regBase then .lit (w.setWidth 15)
  else if h : w.toNat - Config.regBase < 8 then .reg ⟨w.toNat - Config.regBase, h⟩
  else .invalid w

/-- An instruction of format F0 (R71). -/
def format0 (i : Instr) (ws : List Word) : Decoded := .ok i ws

/-- An instruction of format F1: one operand word (R71). -/
def format1 (f : Operand → Instr) : List Word → Decoded
  | a :: ws => .ok (f (classify a)) ws
  | [] => .operandsMissing 1

/-- An instruction of format F2: two operand words (R71). -/
def format2 (f : Operand → Operand → Instr) : List Word → Decoded
  | a :: b :: ws => .ok (f (classify a) (classify b)) ws
  | _ => .operandsMissing 2

/-- An instruction of format F3: three operand words (R71). -/
def format3 (f : Operand → Operand → Operand → Instr) : List Word → Decoded
  | a :: b :: c :: ws => .ok (f (classify a) (classify b) (classify c)) ws
  | _ => .operandsMissing 3

/-- Decoding from an opcode word (R103) and the words after it: the whole 16-bit word selects the
instruction (R72), and the instruction alone fixes how many operand words follow (R74). -/
def decodeFrom (w : Word) (ws : List Word) : Decoded :=
  match w.toNat with
  | 0 => format0 .halt ws
  | 1 => format2 .set ws
  | 2 => format1 .push ws
  | 3 => format1 .pop ws
  | 4 => format3 .eq ws
  | 5 => format3 .gt ws
  | 6 => format1 .jmp ws
  | 7 => format2 .jt ws
  | 8 => format2 .jf ws
  | 9 => format3 .add ws
  | 10 => format3 .mult ws
  | 11 => format3 .mod ws
  | 12 => format3 .and ws
  | 13 => format3 .or ws
  | 14 => format2 .not ws
  | 15 => format2 .rmem ws
  | 16 => format2 .wmem ws
  | 17 => format1 .call ws
  | 18 => format0 .ret ws
  | 19 => format1 .out ws
  | 20 => format1 .inp ws
  | 21 => format0 .noop ws
  | _ => .invalidOpcode w

/-- Decoding a run of memory words (R70, R82). -/
def decodeWords : List Word → Decoded
  | [] => .noOpcodeWord
  | w :: ws => decodeFrom w ws

/-- The word two image bytes make, low byte first (R52). -/
def wordOfBytes (lo hi : Byte) : Word := hi ++ lo

/-- The two bytes of a word, low byte first (R52). -/
def lowByte (w : Word) : Byte := w.setWidth 8

/-- The high byte of a word (R52). -/
def highByte (w : Word) : Byte := (w >>> 8).setWidth 8

/-- The words a byte string holds (R52); a last single byte makes no word. -/
def wordsOfBytes : List Byte → List Word
  | lo :: hi :: bs => wordOfBytes lo hi :: wordsOfBytes bs
  | _ => []

/-- The bytes of some words in the order of a program image (R52, R261). -/
def bytesOfWords : List Word → List Byte
  | [] => []
  | w :: ws => lowByte w :: highByte w :: bytesOfWords ws

/-- Decoding a byte string. -/
def decode (bs : List Byte) : Decoded := decodeWords (wordsOfBytes bs)

/-- The word of an operand (R7, R75): the inverse of `classify`. -/
def Operand.word : Operand → Word
  | .lit v => v.setWidth 16
  | .reg r => BitVec.ofNat 16 (Config.regBase + r.val)
  | .invalid w => w

/-- The opcode word of an instruction (R73). -/
def Instr.opcodeWord : Instr → Word
  | .halt => 0
  | .set _ _ => 1
  | .push _ => 2
  | .pop _ => 3
  | .eq _ _ _ => 4
  | .gt _ _ _ => 5
  | .jmp _ => 6
  | .jt _ _ => 7
  | .jf _ _ => 8
  | .add _ _ _ => 9
  | .mult _ _ _ => 10
  | .mod _ _ _ => 11
  | .and _ _ _ => 12
  | .or _ _ _ => 13
  | .not _ _ => 14
  | .rmem _ _ => 15
  | .wmem _ _ => 16
  | .call _ => 17
  | .ret => 18
  | .out _ => 19
  | .inp _ => 20
  | .noop => 21

/-- The `1 + arity` words of an instruction in memory order (R70, R71, R73). -/
def encode (i : Instr) : List Word := i.opcodeWord :: i.operands.map fun p => p.2.word

/-- The four words that hold the `nbits` low bits of `w`, bit 0 the least significant bit of the first word;
every bit from `nbits` on is 0. -/
def tableWords (nbits w : Nat) : List Word :=
  (List.range Config.maxWords).map fun j => BitVec.ofNat 16 ((w % 2 ^ nbits) >>> (16 * j))

/-- The instruction the decoder reads from the `nbits` bits of `w`, numbered as spec/opcode_table.json numbers
them, the bits above `nbits` zero. -/
def decodeTableWord (nbits w : Nat) : Option Instr :=
  match decode (bytesOfWords (tableWords nbits w)) with
  | .ok i _ => some i
  | .noOpcodeWord => none
  | .invalidOpcode _ => none
  | .operandsMissing _ => none

end Sys2Proof
end

