-- ==== Sys2Proof/Machine/State.lean ====
section
/-! DEFINITION. The state of the machine: the six elements of spec/10_state.md R20, the two character channels
of R34 and R35, and the report of the last step (spec/40_step_cycle.md R100). -/
namespace Sys2Proof.Machine

/-- Memory as bytes in one canonical form (`Memory.wf`): the word in cell `n` is the two bytes at `2 n` (low)
and `2 n + 1` (high), the order of the program image (R52). DESIGN CHOICE, log 3, safe. -/
abbrev Memory := List Host.Cell

/-- The cause of a fault (R220, R222 to R228). Every one sets `halted` and changes nothing else (R221). -/
inductive Cause where
  /-- the opcode word is not in 0..21 (R222) -/
  | invalidOpcode
  /-- an operand word is invalid, or a destination is a literal (R223) -/
  | invalidOperand
  /-- `pop` or `ret` on an empty stack (R224) -/
  | stackUnderflow
  /-- a value above 32775 was about to be written (R225) -/
  | valueOutOfRange
  /-- an address above 32767 was about to be used or to become `pc` (R226) -/
  | addressOutOfRange
  /-- `mod` with divisor 0 (R227) -/
  | divideByZero
deriving DecidableEq, Repr

/-- What a step reports (R100, R228). -/
inductive StepOutcome where
  /-- one instruction other than `halt` executed and committed -/
  | retired
  /-- the `halt` instruction executed -/
  | haltRetired
  /-- the instruction could not execute; `info` is the information word of R230 -/
  | fault (cause : Cause) (info : Word)
  /-- an `in` found the input queue empty (R117) -/
  | inputWait
  /-- `halted` was already true (R101) -/
  | alreadyHalted
deriving DecidableEq, Repr

/-- The machine. All fields but `outcome` are the spec's. -/
structure State where
  /-- the eight registers `x[0]`..`x[7]` (R21) -/
  regs : Vector Word 8
  /-- the 32768 memory cells (R31) -/
  mem : Memory
  /-- the stack, the top at the end (R20, R32) -/
  stack : List Word
  /-- the program counter, a word address (R24) -/
  pc : Word
  /-- the halted flag (R27) -/
  halted : Bool
  /-- the count of retired instructions, unbounded (R29). DESIGN CHOICE, log 8, safe -/
  icount : Nat
  /-- the input channel's queue, the oldest character first (R34) -/
  input : List Byte
  /-- the characters emitted so far, in order (R35) -/
  output : List Byte
  /-- the report of the last step, `none` before any (R100, R228); an output that no step reads.
  DESIGN CHOICE, log 2, safe -/
  outcome : Option StepOutcome
deriving DecidableEq, Repr

/-- The reasons for which the MODEL itself stops. There is none: every fault of the spec is an effect on the
state that the spec describes (R221), so a step takes it as a next state (log 1). -/
inductive Fault where
deriving DecidableEq, Repr

/-- The reasons for which the model has no meaning for an instruction. -/
inductive Refusal where
  /-- raised by an arm of `exec` whose instruction has no meaning yet; safe. No arm raises it now. -/
  | notModelled (mnemonic : String)
deriving DecidableEq, Repr

/-- The machine right after reset (R38, R260), before an image is loaded: memory lists nothing, so every
cell reads the fill value of R262 (log 4). -/
def State.reset : State where
  regs := Vector.replicate 8 0
  mem := []
  stack := []
  pc := 0
  halted := false
  icount := 0
  input := []
  output := []
  outcome := none

end Sys2Proof.Machine
end

