-- ==== Sys2Proof/Machine/Flags.lean ====
section
/-! DEFINITION. The one status flag, `halted` (spec/10_state.md R27), and the word a comparison leaves in a
general register: the core has no condition codes (R28). -/
namespace Sys2Proof.Machine

/-- Set the halted flag; no instruction clears it (R27). -/
def State.setHalted (s : State) : State := { s with halted := true }

/-- The result of a comparison, 1 or 0, as a register value (R28, R152). -/
def truthWord (b : Bool) : Word := if b then 1 else 0

end Sys2Proof.Machine
end

