-- ==== Sys2Proof/Machine/Memory.lean ====
section
/-! DEFINITION. The operations over memory: bytes in canonical form, and the 16-bit cells of
spec/20_memory.md R50 to R58 built from them in one place. -/
namespace Sys2Proof.Machine

/-- The byte at a byte address; an unlisted one reads as the fill value (R262, log 4). -/
def Memory.byteAt : Memory → Nat → Byte
  | [], _ => Config.imageFill
  | (k, v) :: m, n => if k = n then v else Memory.byteAt m n

/-- Put a listed byte in front, unless it is what an unlisted address reads as. -/
def Memory.consByte (n : Nat) (v : Byte) (m : Memory) : Memory :=
  if v = Config.imageFill then m else (n, v) :: m

/-- Write one byte, keeping the canonical form. -/
def Memory.setByte (n : Nat) (v : Byte) : Memory → Memory
  | [] => Memory.consByte n v []
  | (k, x) :: m =>
    if n < k then Memory.consByte n v ((k, x) :: m)
    else if n = k then Memory.consByte n v m
    else (k, x) :: Memory.setByte n v m

/-- The word in cell `n` (R51, R54): `MemRead(n, 1)` of R9. -/
def Memory.wordAt (m : Memory) (n : Nat) : Word :=
  wordOfBytes (m.byteAt (2 * n)) (m.byteAt (2 * n + 1))

/-- Store a word in cell `n` (R54, R55): `MemWrite(n, 1, v)` of R9. -/
def Memory.setWord (m : Memory) (n : Nat) (v : Word) : Memory :=
  (m.setByte (2 * n) (lowByte v)).setByte (2 * n + 1) (highByte v)

/-- The canonical form: byte addresses strictly rising and inside the 32768 cells (R31), and no byte equal
to what an unlisted address reads as. -/
abbrev Memory.wf (m : Memory) : Prop :=
  m.Pairwise (fun p q => p.1 < q.1) ∧
    ∀ c ∈ m, c.2 ≠ Config.imageFill ∧ c.1 < Config.imageBytes

/-- The memory an image leaves, from a byte address on: its bytes verbatim (R261), the rest the fill value
(R262). -/
def Memory.ofImage : Nat → List Byte → Memory
  | _, [] => []
  | n, b :: bs => Memory.consByte n b (Memory.ofImage (n + 1) bs)

/-- Store words in consecutive cells from `n` on; a cell past the last one does not exist and takes nothing
(R57). Used only to place an instruction, never by one. -/
def Memory.placeWords (m : Memory) (n : Nat) : List Word → Memory
  | [] => m
  | w :: ws => Memory.placeWords (if n ≤ Config.maxAddress then m.setWord n w else m) (n + 1) ws

end Sys2Proof.Machine
end

