-- ==== Sys2Proof/Machine/Ops.lean ====
section
/-! DEFINITION. The named operations over the state, taking a fault (spec/60_exceptions.md R221), the range
checks, and the commit of an instruction (spec/40_step_cycle.md R111 to R117). -/
namespace Sys2Proof.Machine

/-- Read a register, `x[r]` of R9. -/
def State.reg (s : State) (r : RegIdx) : Word := s.regs[r.val]'r.isLt

/-- Write a register, `x[r] <- v` of R9 without its range check. -/
def State.setReg (s : State) (r : RegIdx) (v : Word) : State :=
  { s with regs := s.regs.set r.val v r.isLt }

/-- Store a word in a memory cell. -/
def State.storeWord (s : State) (n : Nat) (v : Word) : State := { s with mem := s.mem.setWord n v }

/-- `Push(v)` of R9: append at the top (R32). -/
def State.push (s : State) (v : Word) : State := { s with stack := s.stack ++ [v] }

/-- The top entry, if there is one (R33). -/
def State.top (s : State) : Option Word := s.stack.getLast?

/-- Remove the top entry (R32). -/
def State.dropTop (s : State) : State := { s with stack := s.stack.dropLast }

/-- `Emit(b)` of R9: append to the output channel (R35). -/
def State.emit (s : State) (b : Byte) : State := { s with output := s.output ++ [b] }

/-- Remove the oldest character of the input queue (R34). -/
def State.dropInput (s : State) : State := { s with input := s.input.tail }

/-- Set the program counter. -/
def State.setPc (s : State) (n : Nat) : State := { s with pc := BitVec.ofNat 16 n }

/-- Count one retired instruction (R116). -/
def State.count (s : State) : State := { s with icount := s.icount + 1 }

/-- Report a step's outcome (R100). -/
def State.report (s : State) (o : StepOutcome) : State := { s with outcome := some o }

/-- Taking a fault, `raise cause(info)` of R9 (R221, R230): `halted` becomes true, the step reports the cause
and the information word, nothing else changes. There is no return from a fault (R237). -/
def raise (cause : Cause) (info : Word) (s : State) : Host.Outcome State Fault Refusal :=
  .next (s.setHalted.report (.fault cause info))

/-- The stop of an `in` on an empty queue: no change but the report (R117). -/
def waitForInput (s : State) : Host.Outcome State Fault Refusal := .next (s.report .inputWait)

/-- A step on a halted core: no change but the report (R101). -/
def stayHalted (s : State) : Host.Outcome State Fault Refusal := .next (s.report .alreadyHalted)

/-- An address must be in 0..32767 (R57): go on, or fault with that address. -/
def guardAddress (n : Nat) (s : State) (k : Host.Outcome State Fault Refusal) :
    Host.Outcome State Fault Refusal :=
  if Config.maxAddress < n then raise .addressOutOfRange (BitVec.ofNat 16 n) s else k

/-- A value written to a register, a memory cell or the stack must be at most 32775 (R112): go on, or fault
with that value. -/
def guardValue (v : Word) (s : State) (k : Host.Outcome State Fault Refusal) :
    Host.Outcome State Fault Refusal :=
  if Config.valueMax < v.toNat then raise .valueOutOfRange v s else k

/-- The address after an instruction with `arity` operand words (R113). -/
def nextPc (s : State) (arity : Nat) : Nat := s.pc.toNat + 1 + arity

/-- Retire an instruction: `t` is the state with its effects, `npc` the next `pc` (R115, R116). -/
def retire (t : State) (npc : Nat) : Host.Outcome State Fault Refusal :=
  .next (((t.setPc npc).count).report .retired)

/-- Commit (R114, R115): check the next `pc`, then apply all effects together. `s` is the state the step
began with, `t` is `s` with the instruction's effects. -/
def commit (s t : State) (npc : Nat) : Host.Outcome State Fault Refusal :=
  guardAddress npc s (retire t npc)

/-- Commit an instruction that also writes a register, after the write-range check (R112). -/
def commitReg (s t : State) (r : RegIdx) (v : Word) (npc : Nat) :
    Host.Outcome State Fault Refusal :=
  guardValue v s (commit s (t.setReg r v) npc)

/-- Retire `halt`: it advances `pc` by 1 with no range check, sets `halted` and is counted (R114, R130). -/
def retireHalt (s : State) : Host.Outcome State Fault Refusal :=
  .next (((s.setPc (nextPc s 0)).setHalted.count).report .haltRetired)

/-- The numeric code of a fault cause (R228). -/
def Cause.code : Cause → Nat
  | .invalidOpcode => 1
  | .invalidOperand => 2
  | .stackUnderflow => 3
  | .valueOutOfRange => 4
  | .addressOutOfRange => 5
  | .divideByZero => 6

/-- The kind code of a step's outcome (R228). -/
def StepOutcome.kindCode : StepOutcome → Nat
  | .retired => 0
  | .haltRetired => 1
  | .fault _ _ => 2
  | .inputWait => 3
  | .alreadyHalted => 4

/-- The cause code of a step's outcome, 0 where there is no cause (R228). -/
def StepOutcome.causeCode : StepOutcome → Nat
  | .fault c _ => c.code
  | .retired => 0
  | .haltRetired => 0
  | .inputWait => 0
  | .alreadyHalted => 0

end Sys2Proof.Machine
end

