-- ==== Sys2Proof/Machine/Operands.lean ====
section
/-! DEFINITION. Operand validation and resolution (spec/40_step_cycle.md R106 to R110). A meaning resolves
its operands in the order a, b, c, so the first offending word is the one reported, and before any effect. -/
namespace Sys2Proof.Machine

/-- Source resolution `val` (R108): a literal's value zero-extended, or the register's contents; one level
deep (R77). Nothing for an invalid word. -/
def val (s : State) : Operand → Option Word
  | .lit v => some (v.setWidth 16)
  | .reg r => some (s.reg r)
  | .invalid _ => none

/-- Destination resolution `dst` (R109): the register named. Nothing for a literal or an invalid word
(R79). -/
def dst : Operand → Option RegIdx
  | .lit _ => none
  | .reg r => some r
  | .invalid _ => none

/-- Resolve a source operand and go on, or fault with its word (R106). -/
def withSrc (w : Operand) (s : State) (k : Word → Host.Outcome State Fault Refusal) :
    Host.Outcome State Fault Refusal :=
  match val s w with
  | some v => k v
  | none => raise .invalidOperand w.word s

/-- Resolve a destination operand and go on, or fault with its word (R106). -/
def withDst (w : Operand) (s : State) (k : RegIdx → Host.Outcome State Fault Refusal) :
    Host.Outcome State Fault Refusal :=
  match dst w with
  | some r => k r
  | none => raise .invalidOperand w.word s

/-- The first operand word, in memory order, that is not legal in its position (R106, R223). -/
def firstBadOperand (i : Instr) : Option Word :=
  (i.operands.find? fun p => !p.2.legalAs p.1).map fun p => p.2.word

end Sys2Proof.Machine
end

