-- ==== Sys2Proof/Machine/Alu.lean ====
section
/-! DEFINITION. The ALU and its six instructions (spec/45_alu.md): exact unsigned arithmetic on the full
16-bit inputs, then reduction modulo 32768 (R177, R178); no flags (R179). -/
namespace Sys2Proof.Machine

/-- An exact result reduced modulo 32768 (R177). -/
def reduce (n : Nat) : Word := BitVec.ofNat 16 (n % Config.modulus)

/-- The sum (R171). -/
def aluAdd (x y : Word) : Word := reduce (x.toNat + y.toNat)

/-- The product (R172). -/
def aluMult (x y : Word) : Word := reduce (x.toNat * y.toNat)

/-- The remainder of unsigned division, for a divisor that is not 0 (R173, R178). -/
def aluMod (x y : Word) : Word := reduce (x.toNat % y.toNat)

/-- Bits 14:0 of the bitwise and (R174). -/
def aluAnd (x y : Word) : Word := reduce (x &&& y).toNat

/-- Bits 14:0 of the bitwise or (R175). -/
def aluOr (x y : Word) : Word := reduce (x ||| y).toNat

/-- The 15-bit complement (R176). -/
def aluNot (x : Word) : Word := BitVec.ofNat 16 (32767 - x.toNat % Config.modulus)

/-- `add a b c` (R171). -/
def execAdd (a b c : Operand) (s : State) : Host.Outcome State Fault Refusal :=
  withDst a s fun r => withSrc b s fun x => withSrc c s fun y =>
    commitReg s s r (aluAdd x y) (nextPc s 3)

/-- `mult a b c` (R172). -/
def execMult (a b c : Operand) (s : State) : Host.Outcome State Fault Refusal :=
  withDst a s fun r => withSrc b s fun x => withSrc c s fun y =>
    commitReg s s r (aluMult x y) (nextPc s 3)

/-- `mod a b c` (R173): a divisor 0 is the fault of R180. -/
def execMod (a b c : Operand) (s : State) : Host.Outcome State Fault Refusal :=
  withDst a s fun r => withSrc b s fun x => withSrc c s fun y =>
    if y.toNat = 0 then raise .divideByZero 0 s
    else commitReg s s r (aluMod x y) (nextPc s 3)

/-- `and a b c` (R174). -/
def execAnd (a b c : Operand) (s : State) : Host.Outcome State Fault Refusal :=
  withDst a s fun r => withSrc b s fun x => withSrc c s fun y =>
    commitReg s s r (aluAnd x y) (nextPc s 3)

/-- `or a b c` (R175). -/
def execOr (a b c : Operand) (s : State) : Host.Outcome State Fault Refusal :=
  withDst a s fun r => withSrc b s fun x => withSrc c s fun y =>
    commitReg s s r (aluOr x y) (nextPc s 3)

/-- `not a b` (R176). -/
def execNot (a b : Operand) (s : State) : Host.Outcome State Fault Refusal :=
  withDst a s fun r => withSrc b s fun x => commitReg s s r (aluNot x) (nextPc s 2)

end Sys2Proof.Machine
end

