-- ==== Sys2Proof/Machine/CallRet.lean ====
section
/-! DEFINITION. `call`, `ret` (spec/47_call_ret.md): the return address goes on the same stack as data
(R202). -/
namespace Sys2Proof.Machine

/-- `call a` (R200): the target is resolved and checked before the push of `pc + 2`. -/
def execCall (a : Operand) (s : State) : Host.Outcome State Fault Refusal :=
  withSrc a s fun target =>
    guardAddress target.toNat s
      (guardValue (BitVec.ofNat 16 (nextPc s 1)) s
        (commit s (s.push (BitVec.ofNat 16 (nextPc s 1))) target.toNat))

/-- `ret` (R201): the top entry is removed only when it is a legal target. -/
def execRet (s : State) : Host.Outcome State Fault Refusal :=
  match s.top with
  | none => raise .stackUnderflow 0 s
  | some target => commit s s.dropTop target.toNat

end Sys2Proof.Machine
end

