-- ==== Sys2Proof/Machine/EqGt.lean ====
section
/-! DEFINITION. `eq`, `gt` (spec/43_eq_gt.md): full 16-bit unsigned values are compared (R152). -/
namespace Sys2Proof.Machine

/-- `eq a b c` (R150). -/
def execEq (a b c : Operand) (s : State) : Host.Outcome State Fault Refusal :=
  withDst a s fun r => withSrc b s fun x => withSrc c s fun y =>
    commitReg s s r (truthWord (decide (x.toNat = y.toNat))) (nextPc s 3)

/-- `gt a b c` (R151): `b` greater than `c`, unsigned. -/
def execGt (a b c : Operand) (s : State) : Host.Outcome State Fault Refusal :=
  withDst a s fun r => withSrc b s fun x => withSrc c s fun y =>
    commitReg s s r (truthWord (decide (y.toNat < x.toNat))) (nextPc s 3)

end Sys2Proof.Machine
end

