-- ==== Sys2Proof/Machine/HaltNoop.lean ====
section
/-! DEFINITION. `halt` and `noop` (spec/41_halt_noop.md). -/
namespace Sys2Proof.Machine

/-- `halt` (R130). -/
def execHalt (s : State) : Host.Outcome State Fault Refusal := retireHalt s

/-- `noop` (R131). -/
def execNoop (s : State) : Host.Outcome State Fault Refusal := commit s s (nextPc s 0)

end Sys2Proof.Machine
end

