-- ==== Sys2Proof/Machine/Jumps.lean ====
section
/-! DEFINITION. `jmp`, `jt`, `jf` (spec/44_jmp_jt_jf.md): absolute word targets (R163); the range of a target
is checked only when it becomes `pc` (R114, R161 corner (c)). -/
namespace Sys2Proof.Machine

/-- `jmp a` (R160). -/
def execJmp (a : Operand) (s : State) : Host.Outcome State Fault Refusal :=
  withSrc a s fun target => commit s s target.toNat

/-- `jt a b` (R161): jump when the condition is not 0. -/
def execJt (a b : Operand) (s : State) : Host.Outcome State Fault Refusal :=
  withSrc a s fun x => withSrc b s fun target =>
    commit s s (if x.toNat ≠ 0 then target.toNat else nextPc s 2)

/-- `jf a b` (R162): jump when the condition is 0. -/
def execJf (a b : Operand) (s : State) : Host.Outcome State Fault Refusal :=
  withSrc a s fun x => withSrc b s fun target =>
    commit s s (if x.toNat = 0 then target.toNat else nextPc s 2)

end Sys2Proof.Machine
end

