-- ==== Sys2Proof/Machine/OutIn.lean ====
section
/-! DEFINITION. `out`, `in` (spec/48_out_in.md): the two character channels (R212). -/
namespace Sys2Proof.Machine

/-- `out a` (R210): the low 8 bits of the value. -/
def execOut (a : Operand) (s : State) : Host.Outcome State Fault Refusal :=
  withSrc a s fun v => commit s (s.emit (lowByte v)) (nextPc s 1)

/-- `in a` (R211): every fault check comes before the test of the queue (R118); an empty queue is a wait that
changes nothing (R117). -/
def execIn (a : Operand) (s : State) : Host.Outcome State Fault Refusal :=
  withDst a s fun r =>
    guardAddress (nextPc s 1) s
      (match s.input with
       | [] => waitForInput s
       | ch :: _ => commitReg s s.dropInput r (ch.setWidth 16) (nextPc s 1))

end Sys2Proof.Machine
end

