-- ==== Sys2Proof/Machine/RmemWmem.lean ====
section
/-! DEFINITION. `rmem`, `wmem` (spec/46_rmem_wmem.md): the address is the resolved operand (R192). -/
namespace Sys2Proof.Machine

/-- `rmem a b` (R190): data address, then value, then next `pc`. -/
def execRmem (a b : Operand) (s : State) : Host.Outcome State Fault Refusal :=
  withDst a s fun r => withSrc b s fun x =>
    guardAddress x.toNat s (commitReg s s r (s.mem.wordAt x.toNat) (nextPc s 2))

/-- `wmem a b` (R191): both operands are sources, `a` the address and `b` the value. -/
def execWmem (a b : Operand) (s : State) : Host.Outcome State Fault Refusal :=
  withSrc a s fun x => withSrc b s fun v =>
    guardAddress x.toNat s (guardValue v s (commit s (s.storeWord x.toNat v) (nextPc s 2)))

end Sys2Proof.Machine
end

