-- ==== Sys2Proof/Machine/SetPushPop.lean ====
section
/-! DEFINITION. `set`, `push`, `pop` (spec/42_set_push_pop.md). -/
namespace Sys2Proof.Machine

/-- `set a b` (R140): the value is copied with no reduction. -/
def execSet (a b : Operand) (s : State) : Host.Outcome State Fault Refusal :=
  withDst a s fun r => withSrc b s fun v => commitReg s s r v (nextPc s 2)

/-- `push a` (R141). -/
def execPush (a : Operand) (s : State) : Host.Outcome State Fault Refusal :=
  withSrc a s fun v => guardValue v s (commit s (s.push v) (nextPc s 1))

/-- `pop a` (R142): the operand is checked before the stack. -/
def execPop (a : Operand) (s : State) : Host.Outcome State Fault Refusal :=
  withDst a s fun r =>
    match s.top with
    | none => raise .stackUnderflow 0 s
    | some v => commitReg s s.dropTop r v (nextPc s 1)

end Sys2Proof.Machine
end

