-- ==== Sys2Proof/Machine/Fetch.lean ====
section
/-! DEFINITION. Fetching an instruction (spec/40_step_cycle.md R102 to R105) and placing one. -/
namespace Sys2Proof.Machine

/-- The cells from `n` on, at most `k` of them and none past the last cell (R57, R84): fetch never wraps. -/
def wordsFrom (m : Memory) (n : Nat) : Nat → List Word
  | 0 => []
  | k + 1 => if n ≤ Config.maxAddress then m.wordAt n :: wordsFrom m (n + 1) k else []

/-- The words the decoder is given: as many as the longest instruction has (log 14). Reading a cell has no
side effect (R55), and the decoder looks at no word the instruction does not have. -/
def fetchWords (s : State) : List Word := wordsFrom s.mem s.pc.toNat Config.maxWords

/-- Fetch and decode at `pc`, afresh every step (R82, R102 to R105). -/
def fetch (s : State) : Decoded := decodeWords (fetchWords s)

/-- The fault of an opcode fetch at an address that does not exist. No run reaches it (R25). DEDUCED from
R57, log 6, safe. -/
def raiseNoOpcode (s : State) : Host.Outcome State Fault Refusal :=
  raise .addressOutOfRange s.pc s

/-- The fault of an illegal opcode word (R103, R222). -/
def raiseOpcode (w : Word) (s : State) : Host.Outcome State Fault Refusal :=
  raise .invalidOpcode w s

/-- The fault of operand words past the last cell: the information word is `pc + arity` (R104). -/
def raiseOperandFetch (arity : Nat) (s : State) : Host.Outcome State Fault Refusal :=
  raise .addressOutOfRange (BitVec.ofNat 16 (s.pc.toNat + arity)) s

/-- Words stored at `pc`, where the next step fetches, in a running core. -/
def placeAtPc (s : State) (ws : List Word) : State :=
  { s with mem := s.mem.placeWords s.pc.toNat ws, halted := false }

end Sys2Proof.Machine
end

