-- ==== Sys2Proof/Machine/Step.lean ====
section
/-! DEFINITION. The step (spec/40_step_cycle.md R100, R118, R120). -/
namespace Sys2Proof.Machine

/-- One step (R120): a halted core does nothing; otherwise fetch and decode, then execute. -/
def step (s : State) : Host.Outcome State Fault Refusal :=
  if s.halted then stayHalted s
  else
    match fetch s with
    | .ok i _ => exec i s
    | .noOpcodeWord => raiseNoOpcode s
    | .invalidOpcode w => raiseOpcode w s
    | .operandsMissing k => raiseOperandFetch k s

/-- The `nbits` bits of `w` (zero above them) stored as four words at `pc`, and the core running, so that the
next step fetches exactly that instruction; it stands for the load of a program from outside (R261, log 5).
Words past the last cell are not stored: an instruction fits when `pc + arity ≤ 32767`. -/
def State.withFetchWord (s : State) (nbits w : Nat) : State := placeAtPc s (tableWords nbits w)

end Sys2Proof.Machine
end

