-- ==== Sys2Proof/Machine/HostPort.lean ====
section
/-! DEFINITION. What the host may do between steps (spec/70_reset_and_hazards.md R260 to R269). A refused
request answers `none` and changes nothing (R265, R266; log 16). There is no operation that writes `pc`, the
stack, `halted` or `icount` (R269). -/
namespace Sys2Proof.Machine

/-- Reset and image load (R260, R261, R262): the image's bytes verbatim from cell 0 on, the rest the fill
value; an odd number of bytes or more than 65536 is refused and the core is not started. -/
def bootImage (bytes : List Byte) : Option State :=
  if bytes.length % 2 = 0 ∧ bytes.length ≤ Config.imageBytes then
    some { State.reset with mem := Memory.ofImage 0 bytes }
  else none

/-- `register_get(index)` (R265). -/
def registerGet (s : State) (index : Nat) : Option Word :=
  if h : index < 8 then some (s.reg ⟨index, h⟩) else none

/-- `register_set(index, value)` (R265): the write invariant binds the host too. -/
def registerSet (s : State) (index : Nat) (value : Word) : Option State :=
  if h : index < 8 then
    if value.toNat ≤ Config.valueMax then some (s.setReg ⟨index, h⟩ value) else none
  else none

/-- `memory_read(address)` (R266). -/
def memoryRead (s : State) (address : Nat) : Option Word :=
  if address ≤ Config.maxAddress then some (s.mem.wordAt address) else none

/-- `memory_write(address, value)` (R266). -/
def memoryWrite (s : State) (address : Nat) (value : Word) : Option State :=
  if address ≤ Config.maxAddress ∧ value.toNat ≤ Config.valueMax then
    some (s.storeWord address value)
  else none

/-- `feed_input(chars)` (R267): the characters wait in the queue in order. -/
def feedInput (s : State) (chars : List Byte) : State := { s with input := s.input ++ chars }

/-- `output_stream()` (R268): the characters emitted so far, in order. -/
def outputStream (s : State) : List Byte := s.output

end Sys2Proof.Machine
end

