-- ==== Sys2Proof/Machine/Run.lean ====
section
/-! DEFINITION. The run loop under an instruction budget (spec/60_exceptions.md R231, R242). -/
namespace Sys2Proof.Machine

/-- How a run ended. -/
inductive RunEnd where
  /-- the budget was used up and the machine could go on (R231) -/
  | executionLimitExceeded
  /-- a step reported something other than `Retired`; the state's `outcome` says what (R242) -/
  | stepStopped
deriving DecidableEq, Repr

/-- The run loop with a budget of `n` instructions to retire (R242); the budget counts the instructions of
this run, not `icount`. -/
def run : Nat → State → Host.Outcome (State × RunEnd) Fault Refusal
  | 0, s => .next (s, .executionLimitExceeded)
  | n + 1, s =>
    match step s with
    | .next t => if t.outcome = some .retired then run n t else .next (t, .stepStopped)
    | .fault r => .fault r
    | .refused r => .refused r

/-- A run with no budget configured (`N` infinite in R242) ends in `t`: some budget is enough for a step to
end it there. A run that never ends has no such `t`. -/
def RunsTo (s t : State) : Prop := ∃ n, run n s = .next (t, .stepStopped)

/-- The kind code of the run's end (R228): `ExecutionLimitExceeded` is 5, any other end has the kind code of
the step that ended it. -/
def runKindCode (s : State) : RunEnd → Option Nat
  | .executionLimitExceeded => some 5
  | .stepStopped => s.outcome.map StepOutcome.kindCode

end Sys2Proof.Machine
end

