-- ==== Sys2Proof/Safety.lean ====
section
/-! DEFINITION. What counts as a legal state, a reachable one and a faulted one, in the terms the statements
use. -/
namespace Sys2Proof.Machine

/-- The state a fault leaves (R221): `halted` set, the cause and the information word reported, nothing else
changed. -/
def faulted (cause : Cause) (info : Word) (s : State) : State :=
  { s with halted := true, outcome := some (.fault cause info) }

/-- The core can fetch: not halted, and `pc` addresses a cell (R25, R102). -/
def Running (s : State) : Prop := s.halted = false ∧ s.pc.toNat ≤ 32767

/-- The legal values of R20: registers and stack entries at most 32775 (R22, R33 (e)), memory in its
canonical form, `pc` a memory index, or 32768 in a halted core (R25, R26). -/
abbrev Legal (s : State) : Prop :=
  (∀ r : RegIdx, (s.reg r).toNat ≤ 32775) ∧
  (s.stack.all fun v => decide (v.toNat ≤ 32775)) = true ∧
  s.mem.wf ∧
  s.pc.toNat ≤ 32768 ∧
  (s.halted = false → s.pc.toNat ≤ 32767)

/-- The cells from `n` on hold these words, all inside memory (R31). -/
def CodeAt (m : Memory) : Nat → List Word → Prop
  | _, [] => True
  | n, w :: ws => n ≤ 32767 ∧ m.wordAt n = w ∧ CodeAt m (n + 1) ws

/-- The states that resets with an image, steps and the host's operations lead to (R260 to R269). -/
inductive Reachable : State → Prop
  | boot {bytes : List Byte} {s : State} : bootImage bytes = some s → Reachable s
  | step {s t : State} : Reachable s → step s = .next t → Reachable t
  | registerSet {s t : State} {index : Nat} {value : Word} :
      Reachable s → registerSet s index value = some t → Reachable t
  | memoryWrite {s t : State} {address : Nat} {value : Word} :
      Reachable s → memoryWrite s address value = some t → Reachable t
  | feedInput {s : State} (chars : List Byte) : Reachable s → Reachable (feedInput s chars)

/-- The part of an instruction's rule that the spec calls common: its words (R73), the fault of an operand
that is illegal in its position, first in memory order (R106), and the fault of operand words past the last
cell (R104). -/
def CommonRules (i : Instr) (words : List Word) : Prop :=
  encode i = words ∧
  (∀ (s : State) (w : Word), firstBadOperand i = some w →
    exec i s = .next (faulted .invalidOperand w s)) ∧
  (∀ s : State, Running s → s.mem.wordAt s.pc.toNat = i.opcodeWord →
    32767 < s.pc.toNat + i.arity →
    step s = .next (faulted .addressOutOfRange (BitVec.ofNat 16 (s.pc.toNat + i.arity)) s))

end Sys2Proof.Machine
end

