-- ==== Sys2Proof/Certificates/Slice0/Obligations.lean ====
section
/-! DEFINITION. The statements for the provers, from the numbered rules of spec/. Each docstring names the
rules it formalises; a mark in it says where a clause is the model's own choice. -/

open Sys2Proof Sys2Proof.Machine

/-! ## Encoding and decoding -/

/-- Words written out from the opcode map (R73) and the operand classes (R7) decode to the instruction
they stand for. -/
def Obligations.WrittenOutWordsDecode : Prop :=
  decodeWords [9, 32768, 32767, 5] = .ok (.add (.reg 0) (.lit 32767) (.lit 5)) [] ∧
  decodeWords [1, 32775, 32769, 0] = .ok (.set (.reg 7) (.reg 1)) [0] ∧
  decodeWords [16, 2000, 32768] = .ok (.wmem (.lit 2000) (.reg 0)) [] ∧
  decodeWords [7, 32768, 200] = .ok (.jt (.reg 0) (.lit 200)) [] ∧
  decodeWords [20, 32776] = .ok (.inp (.invalid 32776)) [] ∧
  decodeWords [18] = .ok .ret [] ∧
  decode [0x13, 0x00, 0x61, 0x00] = .ok (.out (.lit 97)) []

/-- R73: the whole opcode map, every row with its number, its arity and the roles of its operands. The
arity 0 of `noop` is the spec's own inference (N6). -/
def Obligations.OpcodeMapRows : Prop :=
  ∀ (a b c : Word) (rest : List Word),
    (decodeWords (0 :: rest) = .ok .halt rest ∧ Instr.halt.operands = []) ∧
    (decodeWords (1 :: a :: b :: rest) = .ok (.set (classify a) (classify b)) rest ∧
      (Instr.set (classify a) (classify b)).operands =
        [(.destination, classify a), (.source, classify b)]) ∧
    (decodeWords (2 :: a :: rest) = .ok (.push (classify a)) rest ∧
      (Instr.push (classify a)).operands = [(.source, classify a)]) ∧
    (decodeWords (3 :: a :: rest) = .ok (.pop (classify a)) rest ∧
      (Instr.pop (classify a)).operands = [(.destination, classify a)]) ∧
    (decodeWords (4 :: a :: b :: c :: rest) = .ok (.eq (classify a) (classify b) (classify c)) rest ∧
      (Instr.eq (classify a) (classify b) (classify c)).operands =
        [(.destination, classify a), (.source, classify b), (.source, classify c)]) ∧
    (decodeWords (5 :: a :: b :: c :: rest) = .ok (.gt (classify a) (classify b) (classify c)) rest ∧
      (Instr.gt (classify a) (classify b) (classify c)).operands =
        [(.destination, classify a), (.source, classify b), (.source, classify c)]) ∧
    (decodeWords (6 :: a :: rest) = .ok (.jmp (classify a)) rest ∧
      (Instr.jmp (classify a)).operands = [(.source, classify a)]) ∧
    (decodeWords (7 :: a :: b :: rest) = .ok (.jt (classify a) (classify b)) rest ∧
      (Instr.jt (classify a) (classify b)).operands =
        [(.source, classify a), (.source, classify b)]) ∧
    (decodeWords (8 :: a :: b :: rest) = .ok (.jf (classify a) (classify b)) rest ∧
      (Instr.jf (classify a) (classify b)).operands =
        [(.source, classify a), (.source, classify b)]) ∧
    (decodeWords (9 :: a :: b :: c :: rest) = .ok (.add (classify a) (classify b) (classify c)) rest ∧
      (Instr.add (classify a) (classify b) (classify c)).operands =
        [(.destination, classify a), (.source, classify b), (.source, classify c)]) ∧
    (decodeWords (10 :: a :: b :: c :: rest) =
        .ok (.mult (classify a) (classify b) (classify c)) rest ∧
      (Instr.mult (classify a) (classify b) (classify c)).operands =
        [(.destination, classify a), (.source, classify b), (.source, classify c)]) ∧
    (decodeWords (11 :: a :: b :: c :: rest) =
        .ok (.mod (classify a) (classify b) (classify c)) rest ∧
      (Instr.mod (classify a) (classify b) (classify c)).operands =
        [(.destination, classify a), (.source, classify b), (.source, classify c)]) ∧
    (decodeWords (12 :: a :: b :: c :: rest) =
        .ok (.and (classify a) (classify b) (classify c)) rest ∧
      (Instr.and (classify a) (classify b) (classify c)).operands =
        [(.destination, classify a), (.source, classify b), (.source, classify c)]) ∧
    (decodeWords (13 :: a :: b :: c :: rest) = .ok (.or (classify a) (classify b) (classify c)) rest ∧
      (Instr.or (classify a) (classify b) (classify c)).operands =
        [(.destination, classify a), (.source, classify b), (.source, classify c)]) ∧
    (decodeWords (14 :: a :: b :: rest) = .ok (.not (classify a) (classify b)) rest ∧
      (Instr.not (classify a) (classify b)).operands =
        [(.destination, classify a), (.source, classify b)]) ∧
    (decodeWords (15 :: a :: b :: rest) = .ok (.rmem (classify a) (classify b)) rest ∧
      (Instr.rmem (classify a) (classify b)).operands =
        [(.destination, classify a), (.source, classify b)]) ∧
    (decodeWords (16 :: a :: b :: rest) = .ok (.wmem (classify a) (classify b)) rest ∧
      (Instr.wmem (classify a) (classify b)).operands =
        [(.source, classify a), (.source, classify b)]) ∧
    (decodeWords (17 :: a :: rest) = .ok (.call (classify a)) rest ∧
      (Instr.call (classify a)).operands = [(.source, classify a)]) ∧
    (decodeWords (18 :: rest) = .ok .ret rest ∧ Instr.ret.operands = []) ∧
    (decodeWords (19 :: a :: rest) = .ok (.out (classify a)) rest ∧
      (Instr.out (classify a)).operands = [(.source, classify a)]) ∧
    (decodeWords (20 :: a :: rest) = .ok (.inp (classify a)) rest ∧
      (Instr.inp (classify a)).operands = [(.destination, classify a)]) ∧
    (decodeWords (21 :: rest) = .ok .noop rest ∧ Instr.noop.operands = [])

/-- R72, R78: the opcode word is compared as a whole number: 0..21 select an instruction whose own opcode
word it is, and every other of the 65536 words is refused as an invalid opcode. -/
def Obligations.OpcodeWordIsComparedWhole : Prop :=
  (∀ (w : Word) (ws : List Word), w.toNat ≤ 21 → 3 ≤ ws.length →
    ∃ i rest, decodeWords (w :: ws) = .ok i rest ∧ i.opcodeWord = w) ∧
  (∀ (w : Word) (ws : List Word), 22 ≤ w.toNat → decodeWords (w :: ws) = .invalidOpcode w)

/-- R70, R74: an instruction has one to four words, 1 + arity of them, and the opcode word alone fixes how
many. -/
def Obligations.LengthFromOpcodeWordAlone : Prop :=
  (∀ (w : Word) (ws rest : List Word) (i : Instr), decodeWords (w :: ws) = .ok i rest →
    i.arity ≤ 3 ∧ (w :: ws).length = 1 + i.arity + rest.length) ∧
  (∀ (w : Word) (ws ws' rest rest' : List Word) (i j : Instr),
    decodeWords (w :: ws) = .ok i rest → decodeWords (w :: ws') = .ok j rest' → i.arity = j.arity)

/-- R7: every word belongs to exactly one of three classes, literal, register reference or invalid; a
literal keeps its value and a register reference names register `w - 32768`, which is `w[2:0]`. -/
def Obligations.OperandWordClasses : Prop :=
  ∀ w : Word,
    (w.toNat ≤ 32767 ↔ ∃ v : BitVec 15, classify w = .lit v ∧ v.toNat = w.toNat) ∧
    (32768 ≤ w.toNat ∧ w.toNat ≤ 32775 ↔
      ∃ r : RegIdx, classify w = .reg r ∧ r.val = w.toNat - 32768 ∧ r.val = w.toNat % 8) ∧
    (32776 ≤ w.toNat ↔ classify w = .invalid w)

/-- R91 (the encoder's direction): the words of any instruction the decoder can make, followed by
anything, decode to that instruction, with every operand at every value its word admits. -/
def Obligations.DecodeOfEncode : Prop :=
  ∀ (i : Instr) (rest : List Word), i.canonical = true → decodeWords (encode i ++ rest) = .ok i rest

/-- R91 (the decoder's direction): whatever words decode to an instruction are that instruction's
encoding, so no two word runs share a meaning and no bit of an encoding is dropped. -/
def Obligations.EncodeOfDecode : Prop :=
  ∀ (i : Instr) (ws rest : List Word), decodeWords ws = .ok i rest →
    i.canonical = true ∧ ws = encode i ++ rest

/-! ## The step's frame -/

/-- R108, R109: a source word resolves to itself up to 32767, to the contents of register `w - 32768` up
to 32775, one level deep, and a destination word 32768..32775 to register `w - 32768`; nothing else
resolves (R77, R79). -/
def Obligations.OperandResolution : Prop :=
  ∀ (s : State) (w : Word),
    (w.toNat ≤ 32767 → val s (classify w) = some w ∧ dst (classify w) = none) ∧
    (∀ h : w.toNat - 32768 < 8, 32768 ≤ w.toNat →
      val s (classify w) = some (s.reg ⟨w.toNat - 32768, h⟩) ∧
      dst (classify w) = some ⟨w.toNat - 32768, h⟩) ∧
    (32776 ≤ w.toNat → val s (classify w) = none ∧ dst (classify w) = none)

/-- R120: in a running core a step executes exactly the instruction whose words stand at `pc`; the step
adds nothing around it. Both ways of saying what stands there: the decoder's answer, and the encoding in
memory. The spec marks R120 as derived from R100 to R118. -/
def Obligations.StepRunsDecodedInstruction : Prop :=
  (∀ (s : State) (i : Instr) (rest : List Word), s.halted = false → fetch s = .ok i rest →
    step s = exec i s) ∧
  (∀ (s : State) (i : Instr), s.halted = false → i.canonical = true →
    CodeAt s.mem s.pc.toNat (encode i) → step s = exec i s)

/-- The instruction that `withFetchWord` places is the one the next step executes, in the state it leaves
(the model's stand-in for a program load, log 5). -/
def Obligations.PlacedWordIsExecuted : Prop :=
  ∀ (s : State) (nbits w : Nat) (i : Instr), s.mem.wf → s.pc.toNat ≤ 32764 →
    decodeTableWord nbits w = some i →
    step (s.withFetchWord nbits w) = exec i (s.withFetchWord nbits w)

/-- R101, R233: a step of a halted core changes nothing and reports `AlreadyHalted`. The spec marks this
as its own decision (D15). -/
def Obligations.HaltedStepDoesNothing : Prop :=
  ∀ s : State, s.halted = true → step s = .next { s with outcome := some .alreadyHalted }

/-- R103, R222: an opcode word above 21 at `pc` is the fault `InvalidOpcode` with that word, whatever
follows it. -/
def Obligations.IllegalOpcodeFaults : Prop :=
  ∀ s : State, Running s → 21 < (s.mem.wordAt s.pc.toNat).toNat →
    step s = .next (faulted .invalidOpcode (s.mem.wordAt s.pc.toNat) s)

/-- R104: when the opcode word at `pc` is legal and `pc + arity` is above 32767, the step faults with
`AddressOutOfRange(pc + arity)`, whatever the operand words inside memory are. The spec marks this as its
own decision (D6). -/
def Obligations.OperandFetchPastTopFaults : Prop :=
  ∀ (s : State) (i : Instr), Running s → s.mem.wordAt s.pc.toNat = i.opcodeWord →
    32767 < s.pc.toNat + i.arity →
    step s = .next (faulted .addressOutOfRange (BitVec.ofNat 16 (s.pc.toNat + i.arity)) s)

/-- R106: the operand words are examined in the order a, b, c; the first that is 32776 or more, or a
literal in a destination position, is the information word of the fault `InvalidOperand`, before any
effect, in every one of the 22 instructions; and an instruction with no such word never reports that
fault. The order and the literal destination are the spec's own decisions (D9, D25). -/
def Obligations.FirstIllegalOperandFaults : Prop :=
  ∀ (i : Instr) (s : State),
    (∀ w, firstBadOperand i = some w → exec i s = .next (faulted .invalidOperand w s)) ∧
    (firstBadOperand i = none ↔ i.wellFormed = true) ∧
    (i.wellFormed = true → ∀ t w, exec i s = .next t → t.outcome ≠ some (.fault .invalidOperand w))

/-- R100: every step of every state ends in a next state with one of the outcomes; the model never stops
and never refuses, in no instruction either. The list of outcomes is the spec's own decision (D13); that a
fault is a next state is the model's (log 1). -/
def Obligations.EveryStepHasANextState : Prop :=
  (∀ s : State, ∃ t o, step s = .next t ∧ t.outcome = some o) ∧
  (∀ (i : Instr) (s : State), ∃ t o, exec i s = .next t ∧ t.outcome = some o)

/-- R221, R236: a step that reports a fault has set `halted` and changed nothing else: no register, memory
byte, stack entry, `pc`, `icount`, channel; and it began in a running core. The spec marks this as its own
decision (D14). -/
def Obligations.FaultsArePrecise : Prop :=
  ∀ (s t : State) (c : Cause) (w : Word), step s = .next t → t.outcome = some (.fault c w) →
    s.halted = false ∧ t = { s with halted := true, outcome := some (.fault c w) }

/-- R117, R232: a step that reports `InputWait` found an `in` and an empty queue, and changed nothing. The
spec marks R117 as its own decision (D16). -/
def Obligations.InputWaitChangesNothing : Prop :=
  ∀ s t : State, step s = .next t → t.outcome = some .inputWait →
    s.halted = false ∧ s.input = [] ∧ (∃ a rest, fetch s = .ok (.inp a) rest) ∧
    t = { s with outcome := some .inputWait }

/-- R29, R116: `icount` grows by exactly 1 in a step that retires an instruction, `halt` included, and by
nothing else. That only a retiring step counts is the spec's own decision (D14, D16). -/
def Obligations.InstructionCounterRule : Prop :=
  ∀ s t : State, step s = .next t →
    (t.outcome = some .retired ∨ t.outcome = some .haltRetired → t.icount = s.icount + 1) ∧
    (t.outcome ≠ some .retired → t.outcome ≠ some .haltRetired → t.icount = s.icount)

/-- R27: `halted` is set by `halt` and by every fault, by nothing else, and no step clears it. -/
def Obligations.HaltedFlagRule : Prop :=
  ∀ s t : State, step s = .next t →
    (t.halted = true ↔
      s.halted = true ∨ t.outcome = some .haltRetired ∨ ∃ c w, t.outcome = some (.fault c w)) ∧
    (s.halted = true → t.halted = true)

/-! ## Invariants and whole-machine rules -/

/-- R20, R22, R25, R33 (e): every step keeps a legal state legal: registers and stack entries at most
32775, memory canonical, `pc` a memory index while the core runs and at most 32768 when it does not. -/
def Obligations.StepKeepsLegal : Prop :=
  ∀ s t : State, Legal s → step s = .next t → Legal t

/-- The reset state is legal, and so is every state an accepted image boots into. -/
def Obligations.BootedStatesAreLegal : Prop :=
  Legal State.reset ∧ ∀ (bytes : List Byte) (s : State), bootImage bytes = some s → Legal s

/-- R38, R260: the values after reset. Memory with no image loaded reads 0: the spec leaves it
unspecified, log 4 takes the fill value of R262. The values of R38 other than `pc` and `halted` are the
spec's own decision (D3). -/
def Obligations.ResetValues : Prop :=
  (∀ r : RegIdx, State.reset.reg r = 0) ∧ State.reset.stack = [] ∧ State.reset.pc = 0 ∧
  State.reset.halted = false ∧ State.reset.icount = 0 ∧ State.reset.input = [] ∧
  State.reset.output = [] ∧ ∀ n, State.reset.mem.wordAt n = 0

/-- Every state that resets, steps and host operations lead to is legal: the write invariant of R22 binds
steps and the host alike, and the `pc` invariant of R25 holds throughout. -/
def Obligations.ReachableStatesAreLegal : Prop := ∀ s : State, Reachable s → Legal s

/-- R270: once `halted` is set no later step changes the state, however many are made; only the report
becomes `AlreadyHalted`. The spec derives R270 from R101 (D15). -/
def Obligations.HaltedStatesAreFinal : Prop :=
  ∀ (s : State) (n : Nat), s.halted = true →
    Host.Core.run core (n + 1) s = .next { s with outcome := some .alreadyHalted }

/-- R228, R39: the report is an output, not stored state: no step depends on what the step before it
reported. That the state keeps the report at all is the model's choice (log 2). -/
def Obligations.StepIgnoresReport : Prop :=
  ∀ (s : State) (o : Option StepOutcome), step { s with outcome := o } = step s

/-- R119, R284: a step sees no more of the input than its oldest character: characters waiting behind the
queue change neither its outcome nor its effect, unless it was the wait for a character. -/
def Obligations.LaterInputIsInvisible : Prop :=
  ∀ (s t : State) (later : List Byte), step s = .next t → t.outcome ≠ some .inputWait →
    step { s with input := s.input ++ later } = .next { t with input := t.input ++ later }

/-- R23: an instruction changes at most the one register its destination operand names; `halt`, `noop`,
`ret` and the instructions with no destination change none. -/
def Obligations.OnlyTheDestinationRegisterChanges : Prop :=
  ∀ (i : Instr) (s t : State) (q : RegIdx), exec i s = .next t → t.reg q ≠ s.reg q →
    (Role.destination, Operand.reg q) ∈ i.operands

/-- R31, R50, R56: `wmem` alone changes memory, and it changes only the two bytes of the cell its resolved
address operand names; every other byte, and with any other instruction every byte, reads as before. -/
def Obligations.OnlyWmemChangesMemory : Prop :=
  (∀ (i : Instr) (s t : State), exec i s = .next t → (∀ a b, i ≠ .wmem a b) → t.mem = s.mem) ∧
  (∀ (a b : Operand) (s t : State) (x : Word), s.mem.wf → val s a = some x →
    exec (.wmem a b) s = .next t →
    ∀ n, n ≠ 2 * x.toNat → n ≠ 2 * x.toNat + 1 → t.mem.byteAt n = s.mem.byteAt n)

/-- R32, R33, R50: only `push`, `pop`, `call` and `ret` change the stack, the first and third by one entry
put on top, the others by the top entry removed. -/
def Obligations.OnlyStackInstructionsChangeTheStack : Prop :=
  ∀ (i : Instr) (s t : State), exec i s = .next t →
    t.stack = s.stack ∨
    ((∃ a, i = .push a ∨ i = .call a) ∧ ∃ v, t.stack = s.stack ++ [v]) ∧ t.outcome = some .retired ∨
    ((∃ a, i = .pop a) ∨ i = .ret) ∧ (∃ v, s.stack = t.stack ++ [v]) ∧ t.outcome = some .retired

/-- R212, R35, R34: `out` alone adds to the output channel, one character at its end; `in` alone takes
from the input channel, its oldest character. -/
def Obligations.OnlyOutAndInTouchTheChannels : Prop :=
  ∀ (i : Instr) (s t : State), exec i s = .next t →
    (t.output = s.output ∨ (∃ a, i = .out a) ∧ ∃ ch, t.output = s.output ++ [ch]) ∧
    (t.input = s.input ∨ (∃ a, i = .inp a) ∧ ∃ ch, s.input = ch :: t.input)

/-- R220's fault table, instruction by instruction: which instruction can raise which cause, with the
information word of R222 to R227. `InvalidOpcode` comes from no instruction's execution. Three of the
causes are the spec's own decisions (D6, D7, D8, D10, D11). -/
def Obligations.FaultCausesByInstruction : Prop :=
  ∀ (i : Instr) (s t : State) (c : Cause) (w : Word), Legal s → exec i s = .next t →
    t.outcome = some (.fault c w) →
    match c with
    | .invalidOpcode => False
    | .invalidOperand => firstBadOperand i = some w
    | .stackUnderflow => ((∃ a, i = .pop a) ∨ i = .ret) ∧ s.stack = [] ∧ w = 0
    | .valueOutOfRange =>
      ∃ a b x, i = .rmem a b ∧ val s b = some x ∧ w = s.mem.wordAt x.toNat ∧ 32775 < w.toNat
    | .addressOutOfRange => i ≠ .halt ∧ 32767 < w.toNat
    | .divideByZero => ∃ a b c, i = .mod a b c ∧ val s c = some 0 ∧ w = 0

/-- R63, R281: a stored word is what the very next fetch of that cell sees: after a `wmem` that retires
with its target at the next `pc`, the next step faults on an illegal opcode word, and executes a legal
one-word instruction. -/
def Obligations.StoreIsSeenByTheNextFetch : Prop :=
  ∀ (a b : Operand) (s t : State) (x v : Word), Legal s → s.halted = false →
    exec (.wmem a b) s = .next t → t.outcome = some .retired →
    val s a = some x → val s b = some v → x = t.pc →
    (21 < v.toNat → step t = .next (faulted .invalidOpcode v t)) ∧
    (v = 0 → step t = exec .halt t) ∧
    (v = 18 → step t = exec .ret t) ∧
    (v = 21 → step t = exec .noop t)

/-! ## Run control and the host port -/

/-- R243: a run with budget N, resumed with budget M when the budget ended it, is the run with budget N +
M. The spec derives R243 from R242. -/
def Obligations.BudgetsAdd : Prop :=
  ∀ (n m : Nat) (s : State),
    (∀ t, run n s = .next (t, .executionLimitExceeded) → run (n + m) s = run m t) ∧
    (∀ t, run n s = .next (t, .stepStopped) → run (n + m) s = .next (t, .stepStopped))

/-- R242, R231: a run ended by its budget has retired exactly that many instructions and not halted; a run
ended by a step has reported something other than `Retired`. A budget of 0 executes nothing. The relative
budget is the spec's own decision (D19, D27). -/
def Obligations.BudgetCountsRetiredInstructions : Prop :=
  (∀ s : State, run 0 s = .next (s, .executionLimitExceeded)) ∧
  (∀ (n : Nat) (s t : State), run n s = .next (t, .executionLimitExceeded) →
    t.icount = s.icount + n ∧ t.halted = s.halted ∧ (0 < n → t.outcome = some .retired)) ∧
  (∀ (n : Nat) (s t : State), run n s = .next (t, .stepStopped) →
    t.outcome ≠ some .retired ∧ s.icount ≤ t.icount ∧ t.icount ≤ s.icount + n) ∧
  (∀ (n : Nat) (s : State), ∃ t e, run n s = .next (t, e))

/-- R261, R262: an image of an odd number of bytes or of more than 65536 is refused; any other is loaded
verbatim, low byte first, from cell 0 on, the cells it does not cover hold 0, and the rest of the state is
that after reset. The fill and the refusals are the spec's own decision (D2). -/
def Obligations.ImageLoad : Prop :=
  ∀ bytes : List Byte,
    (bytes.length % 2 = 1 ∨ 65536 < bytes.length → bootImage bytes = none) ∧
    (bytes.length % 2 = 0 → bytes.length ≤ 65536 → ∃ s, bootImage bytes = some s ∧
      { s with mem := [] } = State.reset ∧ s.mem.wf ∧
      (∀ (i : Nat) (lo hi : Byte), bytes[2 * i]? = some lo → bytes[2 * i + 1]? = some hi →
        (s.mem.wordAt i).toNat = lo.toNat + 256 * hi.toNat) ∧
      (∀ i : Nat, bytes.length ≤ 2 * i → s.mem.wordAt i = 0))

/-- R265: the host's register reads and writes: the index must be 0..7 and the value at most 32775, and a
request outside is refused; a write changes that register alone and does not clear `halted`. The spec
marks this as its own decision (D24). -/
def Obligations.HostRegisterPort : Prop :=
  ∀ (s : State) (index : Nat) (value : Word),
    (∀ h : index < 8, registerGet s index = some (s.reg ⟨index, h⟩)) ∧
    (8 ≤ index → registerGet s index = none ∧ registerSet s index value = none) ∧
    (32775 < value.toNat → registerSet s index value = none) ∧
    (∀ h : index < 8, value.toNat ≤ 32775 → ∃ t, registerSet s index value = some t ∧
      t.reg ⟨index, h⟩ = value ∧ (∀ q : RegIdx, q.val ≠ index → t.reg q = s.reg q) ∧
      { t with regs := s.regs } = s)

/-- R266: the host's memory reads and writes: the address must be 0..32767 and the value at most 32775,
and a request outside is refused; a write changes that cell alone. The spec marks this as its own decision
(D24). -/
def Obligations.HostMemoryPort : Prop :=
  ∀ (s : State) (address : Nat) (value : Word), s.mem.wf →
    (address ≤ 32767 → memoryRead s address = some (s.mem.wordAt address)) ∧
    (32767 < address → memoryRead s address = none ∧ memoryWrite s address value = none) ∧
    (32775 < value.toNat → memoryWrite s address value = none) ∧
    (address ≤ 32767 → value.toNat ≤ 32775 → ∃ t, memoryWrite s address value = some t ∧
      t.mem.wordAt address = value ∧ (∀ n, n ≠ address → t.mem.wordAt n = s.mem.wordAt n) ∧
      { t with mem := s.mem } = s)

/-! ## The instructions, in the order of the opcode table -/

/-- R130: `halt` sets `halted`, advances `pc` by 1 (to 32768 at the last address) and is counted; it
cannot fault. The advance of `pc` is the spec's own decision (D5). -/
def Obligations.HaltRule : Prop :=
  encode .halt = [0] ∧
  ∀ s : State, exec .halt s = .next { s with
    halted := true, pc := s.pc + 1, icount := s.icount + 1, outcome := some .haltRetired }

/-- R140: `set` copies the value, unreduced, into the destination. The copy of 32768..32775 unreduced is
the spec's own decision (D12). -/
def Obligations.SetRule : Prop :=
  ∀ a b : Operand, CommonRules (.set a b) [1, a.word, b.word] ∧
    ∀ (s : State) (r : RegIdx) (v : Word), Legal s → dst a = some r → val s b = some v →
      (s.pc.toNat + 3 ≤ 32767 → exec (.set a b) s = .next { s with
        regs := s.regs.set r.val v r.isLt, pc := s.pc + 3, icount := s.icount + 1,
        outcome := some .retired }) ∧
      (s.pc.toNat + 3 = 32768 → exec (.set a b) s = .next (faulted .addressOutOfRange 32768 s))

/-- R141: `push` puts the resolved value, unreduced, on top of the stack. The push of 32768..32775
unreduced is the spec's own decision (D12). -/
def Obligations.PushRule : Prop :=
  ∀ a : Operand, CommonRules (.push a) [2, a.word] ∧
    ∀ (s : State) (v : Word), Legal s → val s a = some v →
      (s.pc.toNat + 2 ≤ 32767 → exec (.push a) s = .next { s with
        stack := s.stack ++ [v], pc := s.pc + 2, icount := s.icount + 1,
        outcome := some .retired }) ∧
      (s.pc.toNat + 2 = 32768 → exec (.push a) s = .next (faulted .addressOutOfRange 32768 s))

/-- R142: `pop` moves the top entry into the destination; on an empty stack it is the fault
`StackUnderflow(0)`, after the operand check. -/
def Obligations.PopRule : Prop :=
  ∀ a : Operand, CommonRules (.pop a) [3, a.word] ∧
    ∀ (s : State) (r : RegIdx), Legal s → dst a = some r →
      (s.stack = [] → exec (.pop a) s = .next (faulted .stackUnderflow 0 s)) ∧
      (∀ (below : List Word) (v : Word), s.stack = below ++ [v] →
        (s.pc.toNat + 2 ≤ 32767 → exec (.pop a) s = .next { s with
          regs := s.regs.set r.val v r.isLt, stack := below, pc := s.pc + 2,
          icount := s.icount + 1, outcome := some .retired }) ∧
        (s.pc.toNat + 2 = 32768 → exec (.pop a) s = .next (faulted .addressOutOfRange 32768 s)))

/-- R150, R152: `eq` writes 1 if the two full 16-bit values are equal, else 0. The full-value comparison
is the spec's own choice (R152, D12). -/
def Obligations.EqRule : Prop :=
  ∀ a b c : Operand, CommonRules (.eq a b c) [4, a.word, b.word, c.word] ∧
    ∀ (s : State) (r : RegIdx) (x y : Word), dst a = some r → val s b = some x → val s c = some y →
      (s.pc.toNat + 4 ≤ 32767 → exec (.eq a b c) s = .next { s with
        regs := s.regs.set r.val (if x = y then 1 else 0) r.isLt, pc := s.pc + 4,
        icount := s.icount + 1, outcome := some .retired }) ∧
      (s.pc.toNat + 4 = 32768 →
        exec (.eq a b c) s = .next (faulted .addressOutOfRange 32768 s))

/-- R151, R152: `gt` writes 1 if the first source value is greater than the second, unsigned, else 0. The
direction and the full-value comparison are the spec's own decisions (D26, D12). -/
def Obligations.GtRule : Prop :=
  ∀ a b c : Operand, CommonRules (.gt a b c) [5, a.word, b.word, c.word] ∧
    ∀ (s : State) (r : RegIdx) (x y : Word), dst a = some r → val s b = some x → val s c = some y →
      (s.pc.toNat + 4 ≤ 32767 → exec (.gt a b c) s = .next { s with
        regs := s.regs.set r.val (if y.toNat < x.toNat then 1 else 0) r.isLt, pc := s.pc + 4,
        icount := s.icount + 1, outcome := some .retired }) ∧
      (s.pc.toNat + 4 = 32768 →
        exec (.gt a b c) s = .next (faulted .addressOutOfRange 32768 s))

/-- R160, R163: `jmp` sets `pc` to the resolved target, or faults with a target above 32767. The target
fault is the spec's own choice (R163, D7). -/
def Obligations.JmpRule : Prop :=
  ∀ a : Operand, CommonRules (.jmp a) [6, a.word] ∧
    ∀ (s : State) (target : Word), val s a = some target →
      (target.toNat ≤ 32767 → exec (.jmp a) s = .next { s with
        pc := target, icount := s.icount + 1, outcome := some .retired }) ∧
      (32767 < target.toNat →
        exec (.jmp a) s = .next (faulted .addressOutOfRange target s))

/-- R161: `jt` jumps when the full condition value is not 0, else advances by 3; only the `pc` actually
produced is range-checked. That 32768..32775 is true is the spec's own decision (D12). -/
def Obligations.JtRule : Prop :=
  ∀ a b : Operand, CommonRules (.jt a b) [7, a.word, b.word] ∧
    ∀ (s : State) (x target : Word), val s a = some x → val s b = some target →
      (x ≠ 0 → target.toNat ≤ 32767 → exec (.jt a b) s = .next { s with
        pc := target, icount := s.icount + 1, outcome := some .retired }) ∧
      (x ≠ 0 → 32767 < target.toNat →
        exec (.jt a b) s = .next (faulted .addressOutOfRange target s)) ∧
      (x = 0 → s.pc.toNat + 3 ≤ 32767 → exec (.jt a b) s = .next { s with
        pc := s.pc + 3, icount := s.icount + 1, outcome := some .retired }) ∧
      (x = 0 → s.pc.toNat + 3 = 32768 →
        exec (.jt a b) s = .next (faulted .addressOutOfRange 32768 s))

/-- R162: `jf` jumps when the condition value is 0, else advances by 3; only the `pc` actually produced is
range-checked. -/
def Obligations.JfRule : Prop :=
  ∀ a b : Operand, CommonRules (.jf a b) [8, a.word, b.word] ∧
    ∀ (s : State) (x target : Word), val s a = some x → val s b = some target →
      (x = 0 → target.toNat ≤ 32767 → exec (.jf a b) s = .next { s with
        pc := target, icount := s.icount + 1, outcome := some .retired }) ∧
      (x = 0 → 32767 < target.toNat →
        exec (.jf a b) s = .next (faulted .addressOutOfRange target s)) ∧
      (x ≠ 0 → s.pc.toNat + 3 ≤ 32767 → exec (.jf a b) s = .next { s with
        pc := s.pc + 3, icount := s.icount + 1, outcome := some .retired }) ∧
      (x ≠ 0 → s.pc.toNat + 3 = 32768 →
        exec (.jf a b) s = .next (faulted .addressOutOfRange 32768 s))

/-- R171, R177: `add` writes the sum of the full values modulo 32768; no flag is written. -/
def Obligations.AddRule : Prop :=
  ∀ a b c : Operand, CommonRules (.add a b c) [9, a.word, b.word, c.word] ∧
    ∀ (s : State) (r : RegIdx) (x y : Word), dst a = some r → val s b = some x → val s c = some y →
      (s.pc.toNat + 4 ≤ 32767 → exec (.add a b c) s = .next { s with
        regs := s.regs.set r.val (BitVec.ofNat 16 ((x.toNat + y.toNat) % 32768)) r.isLt,
        pc := s.pc + 4, icount := s.icount + 1, outcome := some .retired }) ∧
      (s.pc.toNat + 4 = 32768 →
        exec (.add a b c) s = .next (faulted .addressOutOfRange 32768 s))

/-- R172: `mult` writes the exact product of the full values modulo 32768. -/
def Obligations.MultRule : Prop :=
  ∀ a b c : Operand, CommonRules (.mult a b c) [10, a.word, b.word, c.word] ∧
    ∀ (s : State) (r : RegIdx) (x y : Word), dst a = some r → val s b = some x → val s c = some y →
      (s.pc.toNat + 4 ≤ 32767 → exec (.mult a b c) s = .next { s with
        regs := s.regs.set r.val (BitVec.ofNat 16 ((x.toNat * y.toNat) % 32768)) r.isLt,
        pc := s.pc + 4, icount := s.icount + 1, outcome := some .retired }) ∧
      (s.pc.toNat + 4 = 32768 →
        exec (.mult a b c) s = .next (faulted .addressOutOfRange 32768 s))

/-- R173, R180: `mod` writes the remainder of the first full value by the second, reduced modulo 32768; a
divisor 0 is the fault `DivideByZero(0)`, before the next-`pc` check. What a divisor 0 does is the spec's
own choice (R180, D11). -/
def Obligations.ModRule : Prop :=
  ∀ a b c : Operand, CommonRules (.mod a b c) [11, a.word, b.word, c.word] ∧
    ∀ (s : State) (r : RegIdx) (x y : Word), dst a = some r → val s b = some x → val s c = some y →
      (y = 0 → exec (.mod a b c) s = .next (faulted .divideByZero 0 s)) ∧
      (y ≠ 0 → s.pc.toNat + 4 ≤ 32767 → exec (.mod a b c) s = .next { s with
        regs := s.regs.set r.val (BitVec.ofNat 16 ((x.toNat % y.toNat) % 32768)) r.isLt,
        pc := s.pc + 4, icount := s.icount + 1, outcome := some .retired }) ∧
      (y ≠ 0 → s.pc.toNat + 4 = 32768 →
        exec (.mod a b c) s = .next (faulted .addressOutOfRange 32768 s))

/-- R174: `and` writes bits 14:0 of the bitwise and, bit 15 clear. -/
def Obligations.AndRule : Prop :=
  ∀ a b c : Operand, CommonRules (.and a b c) [12, a.word, b.word, c.word] ∧
    ∀ (s : State) (r : RegIdx) (x y : Word), dst a = some r → val s b = some x → val s c = some y →
      (s.pc.toNat + 4 ≤ 32767 → exec (.and a b c) s = .next { s with
        regs := s.regs.set r.val ((x &&& y) &&& 0x7FFF) r.isLt,
        pc := s.pc + 4, icount := s.icount + 1, outcome := some .retired }) ∧
      (s.pc.toNat + 4 = 32768 →
        exec (.and a b c) s = .next (faulted .addressOutOfRange 32768 s))

/-- R175: `or` writes bits 14:0 of the bitwise or, bit 15 clear. -/
def Obligations.OrRule : Prop :=
  ∀ a b c : Operand, CommonRules (.or a b c) [13, a.word, b.word, c.word] ∧
    ∀ (s : State) (r : RegIdx) (x y : Word), dst a = some r → val s b = some x → val s c = some y →
      (s.pc.toNat + 4 ≤ 32767 → exec (.or a b c) s = .next { s with
        regs := s.regs.set r.val ((x ||| y) &&& 0x7FFF) r.isLt,
        pc := s.pc + 4, icount := s.icount + 1, outcome := some .retired }) ∧
      (s.pc.toNat + 4 = 32768 →
        exec (.or a b c) s = .next (faulted .addressOutOfRange 32768 s))

/-- R176: `not` inverts bits 14:0 and leaves bit 15 clear. -/
def Obligations.NotRule : Prop :=
  ∀ a b : Operand, CommonRules (.not a b) [14, a.word, b.word] ∧
    ∀ (s : State) (r : RegIdx) (x : Word), dst a = some r → val s b = some x →
      (s.pc.toNat + 3 ≤ 32767 → exec (.not a b) s = .next { s with
        regs := s.regs.set r.val ((x ^^^ 0x7FFF) &&& 0x7FFF) r.isLt,
        pc := s.pc + 3, icount := s.icount + 1, outcome := some .retired }) ∧
      (s.pc.toNat + 3 = 32768 → exec (.not a b) s = .next (faulted .addressOutOfRange 32768 s))

/-- R190, R192: `rmem` copies the addressed cell, unreduced, into the destination; an address above 32767
and then a cell value above 32775 fault, in that order, before the next-`pc` check. The value fault is the
spec's own decision (D10). -/
def Obligations.RmemRule : Prop :=
  ∀ a b : Operand, CommonRules (.rmem a b) [15, a.word, b.word] ∧
    ∀ (s : State) (r : RegIdx) (x : Word), dst a = some r → val s b = some x →
      (32767 < x.toNat → exec (.rmem a b) s = .next (faulted .addressOutOfRange x s)) ∧
      (∀ v : Word, x.toNat ≤ 32767 → s.mem.wordAt x.toNat = v →
        (32775 < v.toNat → exec (.rmem a b) s = .next (faulted .valueOutOfRange v s)) ∧
        (v.toNat ≤ 32775 → s.pc.toNat + 3 ≤ 32767 → exec (.rmem a b) s = .next { s with
          regs := s.regs.set r.val v r.isLt, pc := s.pc + 3, icount := s.icount + 1,
          outcome := some .retired }) ∧
        (v.toNat ≤ 32775 → s.pc.toNat + 3 = 32768 →
          exec (.rmem a b) s = .next (faulted .addressOutOfRange 32768 s)))

/-- R191, R192: `wmem` stores the value, unreduced, in the addressed cell and changes no other byte of
memory; an address above 32767 faults. Nothing but memory, `pc`, `icount` and the report changes. -/
def Obligations.WmemRule : Prop :=
  ∀ a b : Operand, CommonRules (.wmem a b) [16, a.word, b.word] ∧
    ∀ (s : State) (x v : Word), Legal s → val s a = some x → val s b = some v →
      (32767 < x.toNat → exec (.wmem a b) s = .next (faulted .addressOutOfRange x s)) ∧
      (x.toNat ≤ 32767 → s.pc.toNat + 3 ≤ 32767 → ∃ m : Memory,
        exec (.wmem a b) s = .next { s with
          mem := m, pc := s.pc + 3, icount := s.icount + 1, outcome := some .retired } ∧
        m.wf ∧ m.wordAt x.toNat = v ∧
        (∀ n, n ≠ x.toNat → m.wordAt n = s.mem.wordAt n) ∧
        (∀ k, k ≠ 2 * x.toNat → k ≠ 2 * x.toNat + 1 → m.byteAt k = s.mem.byteAt k)) ∧
      (x.toNat ≤ 32767 → s.pc.toNat + 3 = 32768 →
        exec (.wmem a b) s = .next (faulted .addressOutOfRange 32768 s))

/-- R200: `call` resolves its target first, pushes `pc + 2` and jumps; a target above 32767 faults and
pushes nothing. At `pc` = 32766 it pushes 32768. -/
def Obligations.CallRule : Prop :=
  ∀ a : Operand, CommonRules (.call a) [17, a.word] ∧
    ∀ (s : State) (target : Word), Legal s → val s a = some target →
      (32767 < target.toNat →
        exec (.call a) s = .next (faulted .addressOutOfRange target s)) ∧
      (target.toNat ≤ 32767 → exec (.call a) s = .next { s with
        stack := s.stack ++ [s.pc + 2], pc := target, icount := s.icount + 1,
        outcome := some .retired })

/-- R201: `ret` removes the top entry and jumps to it; an empty stack is `StackUnderflow(0)`, a top entry
above 32767 is `AddressOutOfRange` and is not removed. -/
def Obligations.RetRule : Prop :=
  encode .ret = [18] ∧
  ∀ s : State,
    (s.stack = [] → exec .ret s = .next (faulted .stackUnderflow 0 s)) ∧
    (∀ (below : List Word) (target : Word), s.stack = below ++ [target] →
      (target.toNat ≤ 32767 → exec .ret s = .next { s with
        stack := below, pc := target, icount := s.icount + 1, outcome := some .retired }) ∧
      (32767 < target.toNat → exec .ret s = .next (faulted .addressOutOfRange target s)))

/-- R210: `out` emits the low 8 bits of the value and changes no register, memory cell or stack entry.
That the channel never blocks is the spec's own decision (D17). -/
def Obligations.OutRule : Prop :=
  ∀ a : Operand, CommonRules (.out a) [19, a.word] ∧
    ∀ (s : State) (v : Word), val s a = some v →
      (s.pc.toNat + 2 ≤ 32767 → exec (.out a) s = .next { s with
        output := s.output ++ [BitVec.ofNat 8 (v.toNat % 256)], pc := s.pc + 2,
        icount := s.icount + 1, outcome := some .retired }) ∧
      (s.pc.toNat + 2 = 32768 → exec (.out a) s = .next (faulted .addressOutOfRange 32768 s))

/-- R211, R117: `in` takes the oldest character, zero-extended, into the destination; on an empty queue it
waits and changes nothing; a next `pc` outside memory faults even then. The width of a character and the
wait are the spec's own decision (D16). -/
def Obligations.InRule : Prop :=
  ∀ a : Operand, CommonRules (.inp a) [20, a.word] ∧
    ∀ (s : State) (r : RegIdx), dst a = some r →
      (∀ (ch : Byte) (rest : List Byte), s.input = ch :: rest → s.pc.toNat + 2 ≤ 32767 →
        exec (.inp a) s = .next { s with
          regs := s.regs.set r.val (BitVec.ofNat 16 ch.toNat) r.isLt, input := rest,
          pc := s.pc + 2, icount := s.icount + 1, outcome := some .retired }) ∧
      (s.input = [] → s.pc.toNat + 2 ≤ 32767 →
        exec (.inp a) s = .next { s with outcome := some .inputWait }) ∧
      (s.pc.toNat + 2 = 32768 → exec (.inp a) s = .next (faulted .addressOutOfRange 32768 s))

/-- R131: `noop` changes `pc` and `icount` only; at the last address it faults. -/
def Obligations.NoopRule : Prop :=
  encode .noop = [21] ∧
  ∀ s : State,
    (s.pc.toNat + 1 ≤ 32767 → exec .noop s = .next { s with
      pc := s.pc + 1, icount := s.icount + 1, outcome := some .retired }) ∧
    (s.pc.toNat + 1 = 32768 → exec .noop s = .next (faulted .addressOutOfRange 32768 s))
end

