-- ==== Sys2Proof/Laws/Alu.lean ====
section
/-! SUPPORT. The ALU's results are 15 bits wide (spec/45_alu.md R177). -/
namespace Sys2Proof.Machine

theorem toNat_reduce (n : Nat) : (reduce n).toNat = n % 32768 := by
  unfold reduce
  rw [BitVec.toNat_ofNat]
  simp only [Config.modulus]
  omega

/-- An ALU result is below the modulus, so it passes the write-range check. -/
theorem reduce_le (n : Nat) : (reduce n).toNat ≤ 32775 := by
  rw [toNat_reduce]
  omega

theorem toNat_aluNot (x : Word) : (aluNot x).toNat = 32767 - x.toNat % 32768 := by
  unfold aluNot
  rw [BitVec.toNat_ofNat]
  simp only [Config.modulus]
  omega

theorem aluNot_le (x : Word) : (aluNot x).toNat ≤ 32775 := by
  rw [toNat_aluNot]
  omega

/-- Reducing a word's value keeps its bits 14:0. -/
theorem reduce_toNat (x : Word) : reduce x.toNat = x &&& 0x7FFF := by
  apply BitVec.eq_of_toNat_eq
  rw [toNat_reduce, BitVec.toNat_and]
  exact (Nat.and_two_pow_sub_one_eq_mod x.toNat 15).symm

end Sys2Proof.Machine
end

