-- ==== Sys2Proof/Laws/Decode.lean ====
section
/-! SUPPORT. Operand words and their classes are inverse to each other (spec/00_scope.md R7), the opcode words
lie in 0..21 (spec/30_encoding.md R73), and bytes and words convert without loss (R52). -/
namespace Sys2Proof

@[simp] theorem lit_legalAs_source (v : BitVec 15) :
    (Operand.lit v).legalAs .source = true := rfl

@[simp] theorem lit_legalAs_destination (v : BitVec 15) :
    (Operand.lit v).legalAs .destination = false := rfl

@[simp] theorem reg_legalAs (r : RegIdx) (ρ : Role) : (Operand.reg r).legalAs ρ = true := by
  cases ρ <;> rfl

@[simp] theorem invalid_legalAs (w : Word) (ρ : Role) : (Operand.invalid w).legalAs ρ = false := by
  cases ρ <;> rfl

theorem classify_lit {w : Word} (h : w.toNat ≤ 32767) : classify w = .lit (w.setWidth 15) := by
  unfold classify
  rw [if_pos (by simp; omega)]

theorem classify_reg {w : Word} (h : 32768 ≤ w.toNat) (h' : w.toNat - 32768 < 8) :
    classify w = .reg ⟨w.toNat - 32768, h'⟩ := by
  unfold classify
  rw [if_neg (by simp; omega), dif_pos (by simpa using h')]

theorem classify_invalid {w : Word} (h : 32776 ≤ w.toNat) : classify w = .invalid w := by
  unfold classify
  rw [if_neg (by simp; omega), dif_neg (by simp; omega)]

theorem toNat_word_lit (v : BitVec 15) : (Operand.lit v).word.toNat = v.toNat := by
  show (v.setWidth 16).toNat = v.toNat
  have : v.toNat < 32768 := v.isLt
  rw [BitVec.toNat_setWidth]
  omega

theorem toNat_word_reg (r : RegIdx) : (Operand.reg r).word.toNat = 32768 + r.val := by
  show (BitVec.ofNat 16 (32768 + r.val)).toNat = _
  have : r.val < 8 := r.isLt
  rw [BitVec.toNat_ofNat]
  omega

/-- The class of a word determines the word. -/
@[simp] theorem word_classify (w : Word) : (classify w).word = w := by
  apply BitVec.eq_of_toNat_eq
  rcases Nat.lt_or_ge w.toNat 32768 with h | h
  · rw [classify_lit (by omega), toNat_word_lit, BitVec.toNat_setWidth]
    omega
  · rcases Nat.lt_or_ge w.toNat 32776 with h' | h'
    · rw [classify_reg h (by omega), toNat_word_reg]
      show 32768 + (w.toNat - 32768) = w.toNat
      omega
    · rw [classify_invalid h']
      rfl

/-- A canonical operand is the class of its word. -/
theorem classify_word {o : Operand} (h : o.canonical = true) : classify o.word = o := by
  cases o with
  | lit v =>
    have hv : v.toNat < 32768 := v.isLt
    rw [classify_lit (by rw [toNat_word_lit]; omega)]
    congr 1
    apply BitVec.eq_of_toNat_eq
    rw [BitVec.toNat_setWidth, toNat_word_lit]
    omega
  | reg r =>
    have hr : r.val < 8 := r.isLt
    have hw := toNat_word_reg r
    have hd : (Operand.reg r).word.toNat - 32768 = r.val := by omega
    rw [classify_reg (by omega) (by omega), Operand.reg.injEq]
    exact Fin.ext hd
  | invalid w =>
    simp only [Operand.canonical, decide_eq_true_eq] at h
    exact classify_invalid h

/-- The decoder makes canonical operands only. -/
@[simp] theorem canonical_classify (w : Word) : (classify w).canonical = true := by
  rcases Nat.lt_or_ge w.toNat 32768 with h | h
  · rw [classify_lit (by omega)]; rfl
  · rcases Nat.lt_or_ge w.toNat 32776 with h' | h'
    · rw [classify_reg h (by omega)]; rfl
    · rw [classify_invalid h']
      simp only [Operand.canonical, decide_eq_true_eq]
      omega

/-- An operand legal in some position is canonical. -/
theorem canonical_of_legalAs {o : Operand} {ρ : Role} (h : o.legalAs ρ = true) :
    o.canonical = true := by
  cases o <;> cases ρ <;> simp_all [Operand.legalAs, Operand.canonical]

/-- A well-formed instruction is canonical. -/
theorem canonical_of_wellFormed {i : Instr} (h : i.wellFormed = true) : i.canonical = true := by
  unfold Instr.wellFormed at h
  unfold Instr.canonical
  rw [List.all_eq_true] at h ⊢
  exact fun p hp => canonical_of_legalAs (h p hp)

/-- Every opcode word lies in 0..21 (R73). -/
theorem opcodeWord_le (i : Instr) : i.opcodeWord.toNat ≤ 21 := by
  cases i <;> simp [Instr.opcodeWord]

/-- No instruction has more than three operand words (R70). -/
theorem arity_le (i : Instr) : i.arity ≤ 3 := by
  cases i <;> simp [Instr.arity, Instr.operands]

/-- With too few operand words the decoder names the arity (R84). -/
theorem decodeFrom_short (i : Instr) {ws : List Word} (h : ws.length < i.arity) :
    decodeFrom i.opcodeWord ws = .operandsMissing i.arity := by
  cases i <;> simp only [Instr.arity, Instr.operands, List.length_cons, List.length_nil] at h ⊢ <;>
    first
      | omega
      | (rcases ws with _ | ⟨x, _ | ⟨y, _ | ⟨z, ws⟩⟩⟩ <;> simp_all <;> first | rfl | omega)

@[simp] theorem wordsOfBytes_bytesOfWords (ws : List Word) :
    wordsOfBytes (bytesOfWords ws) = ws := by
  induction ws with
  | nil => rfl
  | cons w ws ih =>
    have : wordOfBytes (lowByte w) (highByte w) = w := by
      unfold wordOfBytes lowByte highByte
      ext i hi
      simp only [BitVec.getElem_append, BitVec.getElem_setWidth, BitVec.getLsbD_ushiftRight]
      split
      · rw [← BitVec.getLsbD_eq_getElem]
      · rw [show 8 + (i - 8) = i by omega, ← BitVec.getLsbD_eq_getElem]
    rw [bytesOfWords, wordsOfBytes, this, ih]

end Sys2Proof
end

