-- ==== Sys2Proof/Laws/State.lean ====
section
/-! SUPPORT. One lemma per field per named update of the state. -/
namespace Sys2Proof.Machine

@[simp] theorem setHalted_regs (s : State) : (s.setHalted).regs = s.regs := rfl
@[simp] theorem setHalted_mem (s : State) : (s.setHalted).mem = s.mem := rfl
@[simp] theorem setHalted_stack (s : State) : (s.setHalted).stack = s.stack := rfl
@[simp] theorem setHalted_pc (s : State) : (s.setHalted).pc = s.pc := rfl
@[simp] theorem setHalted_halted (s : State) : (s.setHalted).halted = true := rfl
@[simp] theorem setHalted_icount (s : State) : (s.setHalted).icount = s.icount := rfl
@[simp] theorem setHalted_input (s : State) : (s.setHalted).input = s.input := rfl
@[simp] theorem setHalted_output (s : State) : (s.setHalted).output = s.output := rfl
@[simp] theorem setHalted_outcome (s : State) : (s.setHalted).outcome = s.outcome := rfl

@[simp] theorem setReg_regs (s : State) (r : RegIdx) (v : Word) : (s.setReg r v).regs = s.regs.set r.val v r.isLt := rfl
@[simp] theorem setReg_mem (s : State) (r : RegIdx) (v : Word) : (s.setReg r v).mem = s.mem := rfl
@[simp] theorem setReg_stack (s : State) (r : RegIdx) (v : Word) : (s.setReg r v).stack = s.stack := rfl
@[simp] theorem setReg_pc (s : State) (r : RegIdx) (v : Word) : (s.setReg r v).pc = s.pc := rfl
@[simp] theorem setReg_halted (s : State) (r : RegIdx) (v : Word) : (s.setReg r v).halted = s.halted := rfl
@[simp] theorem setReg_icount (s : State) (r : RegIdx) (v : Word) : (s.setReg r v).icount = s.icount := rfl
@[simp] theorem setReg_input (s : State) (r : RegIdx) (v : Word) : (s.setReg r v).input = s.input := rfl
@[simp] theorem setReg_output (s : State) (r : RegIdx) (v : Word) : (s.setReg r v).output = s.output := rfl
@[simp] theorem setReg_outcome (s : State) (r : RegIdx) (v : Word) : (s.setReg r v).outcome = s.outcome := rfl

@[simp] theorem storeWord_regs (s : State) (n : Nat) (v : Word) : (s.storeWord n v).regs = s.regs := rfl
@[simp] theorem storeWord_mem (s : State) (n : Nat) (v : Word) : (s.storeWord n v).mem = s.mem.setWord n v := rfl
@[simp] theorem storeWord_stack (s : State) (n : Nat) (v : Word) : (s.storeWord n v).stack = s.stack := rfl
@[simp] theorem storeWord_pc (s : State) (n : Nat) (v : Word) : (s.storeWord n v).pc = s.pc := rfl
@[simp] theorem storeWord_halted (s : State) (n : Nat) (v : Word) : (s.storeWord n v).halted = s.halted := rfl
@[simp] theorem storeWord_icount (s : State) (n : Nat) (v : Word) : (s.storeWord n v).icount = s.icount := rfl
@[simp] theorem storeWord_input (s : State) (n : Nat) (v : Word) : (s.storeWord n v).input = s.input := rfl
@[simp] theorem storeWord_output (s : State) (n : Nat) (v : Word) : (s.storeWord n v).output = s.output := rfl
@[simp] theorem storeWord_outcome (s : State) (n : Nat) (v : Word) : (s.storeWord n v).outcome = s.outcome := rfl

@[simp] theorem push_regs (s : State) (v : Word) : (s.push v).regs = s.regs := rfl
@[simp] theorem push_mem (s : State) (v : Word) : (s.push v).mem = s.mem := rfl
@[simp] theorem push_stack (s : State) (v : Word) : (s.push v).stack = s.stack ++ [v] := rfl
@[simp] theorem push_pc (s : State) (v : Word) : (s.push v).pc = s.pc := rfl
@[simp] theorem push_halted (s : State) (v : Word) : (s.push v).halted = s.halted := rfl
@[simp] theorem push_icount (s : State) (v : Word) : (s.push v).icount = s.icount := rfl
@[simp] theorem push_input (s : State) (v : Word) : (s.push v).input = s.input := rfl
@[simp] theorem push_output (s : State) (v : Word) : (s.push v).output = s.output := rfl
@[simp] theorem push_outcome (s : State) (v : Word) : (s.push v).outcome = s.outcome := rfl

@[simp] theorem dropTop_regs (s : State) : (s.dropTop).regs = s.regs := rfl
@[simp] theorem dropTop_mem (s : State) : (s.dropTop).mem = s.mem := rfl
@[simp] theorem dropTop_stack (s : State) : (s.dropTop).stack = s.stack.dropLast := rfl
@[simp] theorem dropTop_pc (s : State) : (s.dropTop).pc = s.pc := rfl
@[simp] theorem dropTop_halted (s : State) : (s.dropTop).halted = s.halted := rfl
@[simp] theorem dropTop_icount (s : State) : (s.dropTop).icount = s.icount := rfl
@[simp] theorem dropTop_input (s : State) : (s.dropTop).input = s.input := rfl
@[simp] theorem dropTop_output (s : State) : (s.dropTop).output = s.output := rfl
@[simp] theorem dropTop_outcome (s : State) : (s.dropTop).outcome = s.outcome := rfl

@[simp] theorem emit_regs (s : State) (b : Byte) : (s.emit b).regs = s.regs := rfl
@[simp] theorem emit_mem (s : State) (b : Byte) : (s.emit b).mem = s.mem := rfl
@[simp] theorem emit_stack (s : State) (b : Byte) : (s.emit b).stack = s.stack := rfl
@[simp] theorem emit_pc (s : State) (b : Byte) : (s.emit b).pc = s.pc := rfl
@[simp] theorem emit_halted (s : State) (b : Byte) : (s.emit b).halted = s.halted := rfl
@[simp] theorem emit_icount (s : State) (b : Byte) : (s.emit b).icount = s.icount := rfl
@[simp] theorem emit_input (s : State) (b : Byte) : (s.emit b).input = s.input := rfl
@[simp] theorem emit_output (s : State) (b : Byte) : (s.emit b).output = s.output ++ [b] := rfl
@[simp] theorem emit_outcome (s : State) (b : Byte) : (s.emit b).outcome = s.outcome := rfl

@[simp] theorem dropInput_regs (s : State) : (s.dropInput).regs = s.regs := rfl
@[simp] theorem dropInput_mem (s : State) : (s.dropInput).mem = s.mem := rfl
@[simp] theorem dropInput_stack (s : State) : (s.dropInput).stack = s.stack := rfl
@[simp] theorem dropInput_pc (s : State) : (s.dropInput).pc = s.pc := rfl
@[simp] theorem dropInput_halted (s : State) : (s.dropInput).halted = s.halted := rfl
@[simp] theorem dropInput_icount (s : State) : (s.dropInput).icount = s.icount := rfl
@[simp] theorem dropInput_input (s : State) : (s.dropInput).input = s.input.tail := rfl
@[simp] theorem dropInput_output (s : State) : (s.dropInput).output = s.output := rfl
@[simp] theorem dropInput_outcome (s : State) : (s.dropInput).outcome = s.outcome := rfl

@[simp] theorem setPc_regs (s : State) (n : Nat) : (s.setPc n).regs = s.regs := rfl
@[simp] theorem setPc_mem (s : State) (n : Nat) : (s.setPc n).mem = s.mem := rfl
@[simp] theorem setPc_stack (s : State) (n : Nat) : (s.setPc n).stack = s.stack := rfl
@[simp] theorem setPc_pc (s : State) (n : Nat) : (s.setPc n).pc = BitVec.ofNat 16 n := rfl
@[simp] theorem setPc_halted (s : State) (n : Nat) : (s.setPc n).halted = s.halted := rfl
@[simp] theorem setPc_icount (s : State) (n : Nat) : (s.setPc n).icount = s.icount := rfl
@[simp] theorem setPc_input (s : State) (n : Nat) : (s.setPc n).input = s.input := rfl
@[simp] theorem setPc_output (s : State) (n : Nat) : (s.setPc n).output = s.output := rfl
@[simp] theorem setPc_outcome (s : State) (n : Nat) : (s.setPc n).outcome = s.outcome := rfl

@[simp] theorem count_regs (s : State) : (s.count).regs = s.regs := rfl
@[simp] theorem count_mem (s : State) : (s.count).mem = s.mem := rfl
@[simp] theorem count_stack (s : State) : (s.count).stack = s.stack := rfl
@[simp] theorem count_pc (s : State) : (s.count).pc = s.pc := rfl
@[simp] theorem count_halted (s : State) : (s.count).halted = s.halted := rfl
@[simp] theorem count_icount (s : State) : (s.count).icount = s.icount + 1 := rfl
@[simp] theorem count_input (s : State) : (s.count).input = s.input := rfl
@[simp] theorem count_output (s : State) : (s.count).output = s.output := rfl
@[simp] theorem count_outcome (s : State) : (s.count).outcome = s.outcome := rfl

@[simp] theorem report_regs (s : State) (o : StepOutcome) : (s.report o).regs = s.regs := rfl
@[simp] theorem report_mem (s : State) (o : StepOutcome) : (s.report o).mem = s.mem := rfl
@[simp] theorem report_stack (s : State) (o : StepOutcome) : (s.report o).stack = s.stack := rfl
@[simp] theorem report_pc (s : State) (o : StepOutcome) : (s.report o).pc = s.pc := rfl
@[simp] theorem report_halted (s : State) (o : StepOutcome) : (s.report o).halted = s.halted := rfl
@[simp] theorem report_icount (s : State) (o : StepOutcome) : (s.report o).icount = s.icount := rfl
@[simp] theorem report_input (s : State) (o : StepOutcome) : (s.report o).input = s.input := rfl
@[simp] theorem report_output (s : State) (o : StepOutcome) : (s.report o).output = s.output := rfl
@[simp] theorem report_outcome (s : State) (o : StepOutcome) : (s.report o).outcome = some o := rfl

@[simp] theorem faulted_regs (c : Cause) (w : Word) (s : State) : (faulted c w s).regs = s.regs := rfl
@[simp] theorem faulted_mem (c : Cause) (w : Word) (s : State) : (faulted c w s).mem = s.mem := rfl
@[simp] theorem faulted_stack (c : Cause) (w : Word) (s : State) : (faulted c w s).stack = s.stack := rfl
@[simp] theorem faulted_pc (c : Cause) (w : Word) (s : State) : (faulted c w s).pc = s.pc := rfl
@[simp] theorem faulted_halted (c : Cause) (w : Word) (s : State) : (faulted c w s).halted = true := rfl
@[simp] theorem faulted_icount (c : Cause) (w : Word) (s : State) : (faulted c w s).icount = s.icount := rfl
@[simp] theorem faulted_input (c : Cause) (w : Word) (s : State) : (faulted c w s).input = s.input := rfl
@[simp] theorem faulted_output (c : Cause) (w : Word) (s : State) : (faulted c w s).output = s.output := rfl
@[simp] theorem faulted_outcome (c : Cause) (w : Word) (s : State) : (faulted c w s).outcome = some (.fault c w) := rfl

/-- The stack clause of `Legal`, entry by entry. -/
theorem stack_legal_iff (l : List Word) :
    (l.all fun v => decide (v.toNat ≤ 32775)) = true ↔ ∀ v ∈ l, v.toNat ≤ 32775 := by
  simp [List.all_eq_true]

/-- A register read sees the last write to it, and no write to another. -/
theorem reg_setReg (s : State) (r q : RegIdx) (v : Word) :
    (s.setReg r v).reg q = if r = q then v else s.reg q := by
  simp [State.reg, State.setReg, Vector.getElem_set, Fin.ext_iff]

@[simp] theorem reg_setReg_self (s : State) (r : RegIdx) (v : Word) :
    (s.setReg r v).reg r = v := by simp [reg_setReg]

theorem reg_setReg_ne (s : State) {r q : RegIdx} (v : Word) (h : r ≠ q) :
    (s.setReg r v).reg q = s.reg q := by simp [reg_setReg, h]

/-- A register read depends on the registers alone. -/
theorem reg_congr {s t : State} (h : t.regs = s.regs) (q : RegIdx) : t.reg q = s.reg q := by
  simp [State.reg, h]

end Sys2Proof.Machine
end

