-- ==== Sys2Proof/Laws/Memory.lean ====
section
/-! SUPPORT. Memory: a read after a write, the canonical form kept by every operation, and equality of
canonical memories from equality of their cells. -/
namespace Sys2Proof.Machine

@[simp] theorem byteAt_nil (n : Nat) : Memory.byteAt [] n = 0 := rfl

theorem byteAt_cons (k : Nat) (v : Byte) (m : Memory) (n : Nat) :
    Memory.byteAt ((k, v) :: m) n = if k = n then v else m.byteAt n := rfl

/-- An address below every listed one is unlisted. -/
theorem byteAt_of_lt {m : Memory} {n : Nat} (h : ∀ c ∈ m, n < c.1) : m.byteAt n = 0 := by
  induction m with
  | nil => rfl
  | cons c m ih =>
    have hc := h c (by simp)
    rw [byteAt_cons, if_neg (by omega), ih fun d hd => h d (by simp [hd])]

theorem byteAt_consByte {m : Memory} {n : Nat} (h : ∀ c ∈ m, n < c.1) (v : Byte) (k : Nat) :
    (m.consByte n v).byteAt k = if n = k then v else m.byteAt k := by
  unfold Memory.consByte
  split
  · split
    · subst_vars; exact byteAt_of_lt h
    · rfl
  · exact byteAt_cons n v m k

/-- The canonical form of a tail, and that its addresses lie above the head's. -/
theorem wf_cons {c : Host.Cell} {m : Memory} (h : Memory.wf (c :: m)) :
    m.wf ∧ (∀ d ∈ m, c.1 < d.1) ∧ c.2 ≠ 0 ∧ c.1 < 65536 := by
  obtain ⟨hp, ha⟩ := h
  rw [List.pairwise_cons] at hp
  exact ⟨⟨hp.2, fun d hd => ha d (by simp [hd])⟩, hp.1, (ha c (by simp)).1, (ha c (by simp)).2⟩

theorem wf_cons_of {c : Host.Cell} {m : Memory} (h : m.wf) (hl : ∀ d ∈ m, c.1 < d.1) (hv : c.2 ≠ 0)
    (hb : c.1 < 65536) : Memory.wf (c :: m) := by
  refine ⟨List.pairwise_cons.2 ⟨hl, h.1⟩, fun d hd => ?_⟩
  rcases List.mem_cons.1 hd with rfl | hd
  · exact ⟨hv, hb⟩
  · exact h.2 d hd

theorem wf_consByte {m : Memory} {n : Nat} {v : Byte} (h : m.wf) (hl : ∀ c ∈ m, n < c.1)
    (hb : n < 65536) : (m.consByte n v).wf := by
  unfold Memory.consByte
  split
  · exact h
  · exact wf_cons_of h hl ‹_› hb

theorem mem_consByte {m : Memory} {n : Nat} {v : Byte} {c : Host.Cell} (hc : c ∈ m.consByte n v) :
    c ∈ m ∨ c.1 = n := by
  unfold Memory.consByte at hc
  split at hc
  · exact .inl hc
  · rcases List.mem_cons.1 hc with rfl | hc
    · exact .inr rfl
    · exact .inl hc

theorem setByte_cons (n : Nat) (v : Byte) (d : Host.Cell) (m : Memory) :
    Memory.setByte n v (d :: m) =
      if n < d.1 then Memory.consByte n v (d :: m)
      else if n = d.1 then Memory.consByte n v m
      else d :: m.setByte n v := rfl

/-- Every address `setByte` lists was listed before or is the one written. -/
theorem mem_setByte {m : Memory} {n : Nat} {v : Byte} {c : Host.Cell} (hc : c ∈ m.setByte n v) :
    c ∈ m ∨ c.1 = n := by
  induction m with
  | nil => exact mem_consByte hc
  | cons d m ih =>
    rw [setByte_cons] at hc
    split at hc
    · exact mem_consByte hc
    split at hc
    · exact (mem_consByte hc).imp_left (List.mem_cons_of_mem d)
    · rcases List.mem_cons.1 hc with rfl | hc
      · exact .inl (by simp)
      · exact (ih hc).imp_left (List.mem_cons_of_mem d)

/-- Writing a byte keeps the canonical form. -/
theorem wf_setByte {m : Memory} {n : Nat} {v : Byte} (h : m.wf) (hb : n < 65536) :
    (m.setByte n v).wf := by
  induction m with
  | nil => exact wf_consByte h (by simp) hb
  | cons d m ih =>
    obtain ⟨hm, hl, hv, hd⟩ := wf_cons h
    rw [setByte_cons]
    split_ifs with h1 h2
    · refine wf_consByte h (fun c hc => ?_) hb
      rcases List.mem_cons.1 hc with rfl | hc
      · exact h1
      · exact Nat.lt_trans h1 (hl c hc)
    · exact wf_consByte hm (fun c hc => h2 ▸ hl c hc) hb
    · refine wf_cons_of (ih hm) (fun c hc => ?_) hv hd
      rcases mem_setByte hc with hc | hc
      · exact hl c hc
      · omega

/-- A byte read after a byte write. -/
theorem byteAt_setByte {m : Memory} {n : Nat} {v : Byte} (h : m.wf) (k : Nat) :
    (m.setByte n v).byteAt k = if n = k then v else m.byteAt k := by
  induction m with
  | nil => exact byteAt_consByte (by simp) v k
  | cons d m ih =>
    obtain ⟨hm, hl, _, _⟩ := wf_cons h
    rw [setByte_cons]
    split
    next h1 =>
      refine byteAt_consByte (fun c hc => ?_) v k
      rcases List.mem_cons.1 hc with rfl | hc
      · exact h1
      · exact Nat.lt_trans h1 (hl c hc)
    next h1 =>
      split
      next h2 =>
        rw [byteAt_consByte (fun c hc => h2 ▸ hl c hc), byteAt_cons]
        split_ifs with h3 h4 <;> first | rfl | omega
      next h2 =>
        rw [byteAt_cons, byteAt_cons, ih hm]
        split_ifs with h3 h4 <;> first | rfl | omega

@[simp] theorem wordOfBytes_bytes (v : Word) : wordOfBytes (lowByte v) (highByte v) = v := by
  unfold wordOfBytes lowByte highByte
  ext i hi
  simp only [BitVec.getElem_append, BitVec.getElem_setWidth, BitVec.getLsbD_ushiftRight]
  split
  · rw [← BitVec.getLsbD_eq_getElem]
  · rw [show 8 + (i - 8) = i by omega, ← BitVec.getLsbD_eq_getElem]

/-- Storing a word keeps the canonical form. -/
theorem wf_setWord {m : Memory} {n : Nat} (v : Word) (h : m.wf) (hn : n ≤ 32767) :
    (m.setWord n v).wf :=
  wf_setByte (wf_setByte h (by omega)) (by omega)

/-- A byte read after a word store: the two bytes of the cell change, no other. -/
theorem byteAt_setWord {m : Memory} {n : Nat} {v : Word} (h : m.wf) (hn : n ≤ 32767) (k : Nat) :
    (m.setWord n v).byteAt k =
      if 2 * n + 1 = k then highByte v else if 2 * n = k then lowByte v else m.byteAt k := by
  unfold Memory.setWord
  rw [byteAt_setByte (wf_setByte h (by omega)), byteAt_setByte h]

/-- A word read after a word store (R60). -/
theorem wordAt_setWord {m : Memory} {n : Nat} {v : Word} (h : m.wf) (hn : n ≤ 32767) (k : Nat) :
    (m.setWord n v).wordAt k = if n = k then v else m.wordAt k := by
  unfold Memory.wordAt
  rw [byteAt_setWord h hn, byteAt_setWord h hn]
  by_cases hk : n = k
  · subst hk
    simp
  · rw [if_neg (by omega), if_neg (by omega), if_neg (by omega), if_neg (by omega), if_neg hk]

@[simp] theorem wordAt_nil (n : Nat) : Memory.wordAt [] n = 0 := by
  simp [Memory.wordAt, wordOfBytes]

/-- A canonical memory is determined by its bytes. -/
theorem memory_ext {m k : Memory} (hm : m.wf) (hk : k.wf) (h : ∀ n, m.byteAt n = k.byteAt n) :
    m = k := by
  induction m generalizing k with
  | nil =>
    cases k with
    | nil => rfl
    | cons d k =>
      obtain ⟨dn, dv⟩ := d
      exact absurd (by simpa [byteAt_cons] using (h dn).symm) (wf_cons hk).2.2.1
  | cons c m ih =>
    obtain ⟨hm', hlm, hcv, _⟩ := wf_cons hm
    cases k with
    | nil =>
      obtain ⟨cn, cv⟩ := c
      exact absurd (by simpa [byteAt_cons] using h cn) hcv
    | cons d k =>
      obtain ⟨hk', hlk, hdv, _⟩ := wf_cons hk
      obtain ⟨cn, cv⟩ := c
      obtain ⟨dn, dv⟩ := d
      simp only at hlm hlk hcv hdv
      have hn : cn = dn := by
        rcases Nat.lt_trichotomy cn dn with hlt | heq | hgt
        · have := h cn
          rw [byteAt_cons, if_pos rfl, byteAt_cons, if_neg (by omega),
            byteAt_of_lt fun e he => Nat.lt_trans hlt (hlk e he)] at this
          exact absurd this hcv
        · exact heq
        · have := h dn
          rw [byteAt_cons, byteAt_cons, if_pos rfl, if_neg (by omega),
            byteAt_of_lt fun e he => Nat.lt_trans hgt (hlm e he)] at this
          exact absurd this.symm hdv
      subst hn
      have hv : cv = dv := by simpa [byteAt_cons] using h cn
      subst hv
      rw [ih hm' hk' fun n => ?_]
      by_cases hnn : cn = n
      · subst hnn
        rw [byteAt_of_lt hlm, byteAt_of_lt hlk]
      · simpa [byteAt_cons, hnn] using h n

theorem le_of_mem_ofImage {bs : List Byte} {n : Nat} {c : Host.Cell}
    (hc : c ∈ Memory.ofImage n bs) : n ≤ c.1 := by
  induction bs generalizing n with
  | nil => simp [Memory.ofImage] at hc
  | cons b bs ih =>
    rcases mem_consByte hc with hc | hc
    · exact Nat.le_of_succ_le (ih hc)
    · exact hc.ge

/-- The memory an image leaves is in canonical form. -/
theorem wf_ofImage {bs : List Byte} {n : Nat} (h : n + bs.length ≤ 65536) :
    (Memory.ofImage n bs).wf := by
  induction bs generalizing n with
  | nil => exact ⟨List.Pairwise.nil, by simp [Memory.ofImage]⟩
  | cons b bs ih =>
    simp only [List.length_cons] at h
    exact wf_consByte (ih (by omega)) (fun c hc => le_of_mem_ofImage hc) (by omega)

/-- The bytes of the memory an image leaves: the image's, then the fill value. -/
theorem byteAt_ofImage (bs : List Byte) (n k : Nat) :
    (Memory.ofImage n bs).byteAt k = if k < n then 0 else bs.getD (k - n) 0 := by
  induction bs generalizing n with
  | nil => simp [Memory.ofImage]
  | cons b bs ih =>
    rw [Memory.ofImage, byteAt_consByte fun c hc => le_of_mem_ofImage hc, ih]
    rcases Nat.lt_trichotomy n k with hlt | heq | hgt
    · rw [if_neg (by omega), if_neg (by omega), if_neg (by omega),
        show k - n = (k - (n + 1)) + 1 by omega, List.getD_cons_succ]
    · subst heq
      simp
    · rw [if_neg (by omega), if_pos (by omega), if_pos hgt]

/-- Placing words keeps the canonical form. -/
theorem wf_placeWords {ws : List Word} {m : Memory} {n : Nat} (h : m.wf) :
    (m.placeWords n ws).wf := by
  induction ws generalizing m n with
  | nil => exact h
  | cons w ws ih =>
    refine ih ?_
    split
    · exact wf_setWord w h ‹_›
    · exact h

/-- Placing words leaves the cells before them alone. -/
theorem wordAt_placeWords_lt {ws : List Word} {m : Memory} {n k : Nat} (h : m.wf) (hk : k < n) :
    (m.placeWords n ws).wordAt k = m.wordAt k := by
  induction ws generalizing m n with
  | nil => rfl
  | cons w ws ih =>
    unfold Memory.placeWords
    split
    · rw [ih (wf_setWord w h ‹_›) (by omega), wordAt_setWord h ‹_›, if_neg (by omega)]
    · exact ih h (by omega)

end Sys2Proof.Machine
end

