-- ==== Sys2Proof/Laws/Ops.lean ====
section
/-! SUPPORT. What each shared operation can do: one law for each way it can go, and one that lists all of
them. -/
namespace Sys2Proof.Machine

theorem raise_eq (c : Cause) (w : Word) (s : State) : raise c w s = .next (faulted c w s) := rfl

theorem guardAddress_le {n : Nat} (h : n ≤ 32767) (s : State)
    (k : Host.Outcome State Fault Refusal) : guardAddress n s k = k := by
  unfold guardAddress
  rw [if_neg (by simp; omega)]

theorem guardAddress_gt {n : Nat} (h : 32767 < n) (s : State)
    (k : Host.Outcome State Fault Refusal) :
    guardAddress n s k = .next (faulted .addressOutOfRange (BitVec.ofNat 16 n) s) := by
  unfold guardAddress
  rw [if_pos (by simpa using h)]
  rfl

theorem guardValue_le {v : Word} (h : v.toNat ≤ 32775) (s : State)
    (k : Host.Outcome State Fault Refusal) : guardValue v s k = k := by
  unfold guardValue
  rw [if_neg (by simp; omega)]

theorem guardValue_gt {v : Word} (h : 32775 < v.toNat) (s : State)
    (k : Host.Outcome State Fault Refusal) :
    guardValue v s k = .next (faulted .valueOutOfRange v s) := by
  unfold guardValue
  rw [if_pos (by simpa using h)]
  rfl

/-- An address guard passes, or takes the fault of its address. -/
theorem guardAddress_cases (n : Nat) (s : State) (k : Host.Outcome State Fault Refusal) :
    (n ≤ 32767 ∧ guardAddress n s k = k) ∨
    (32767 < n ∧ guardAddress n s k =
      .next (faulted .addressOutOfRange (BitVec.ofNat 16 n) s)) := by
  rcases Nat.lt_or_ge 32767 n with h | h
  · exact .inr ⟨h, guardAddress_gt h s k⟩
  · exact .inl ⟨h, guardAddress_le h s k⟩

/-- A value guard passes, or takes the fault of its value. -/
theorem guardValue_cases (v : Word) (s : State) (k : Host.Outcome State Fault Refusal) :
    (v.toNat ≤ 32775 ∧ guardValue v s k = k) ∨
    (32775 < v.toNat ∧ guardValue v s k = .next (faulted .valueOutOfRange v s)) := by
  rcases Nat.lt_or_ge 32775 v.toNat with h | h
  · exact .inr ⟨h, guardValue_gt h s k⟩
  · exact .inl ⟨h, guardValue_le h s k⟩

theorem commit_le {npc : Nat} (h : npc ≤ 32767) (s t : State) :
    commit s t npc = .next (((t.setPc npc).count).report .retired) := guardAddress_le h s _

theorem commit_gt {npc : Nat} (h : 32767 < npc) (s t : State) :
    commit s t npc = .next (faulted .addressOutOfRange (BitVec.ofNat 16 npc) s) :=
  guardAddress_gt h s _

theorem commitReg_le {v : Word} {npc : Nat} (hv : v.toNat ≤ 32775) (h : npc ≤ 32767) (s t : State)
    (r : RegIdx) : commitReg s t r v npc =
      .next ((((t.setReg r v).setPc npc).count).report .retired) := by
  rw [commitReg, guardValue_le hv, commit_le h]

theorem commitReg_gt {v : Word} {npc : Nat} (hv : v.toNat ≤ 32775) (h : 32767 < npc) (s t : State)
    (r : RegIdx) : commitReg s t r v npc =
      .next (faulted .addressOutOfRange (BitVec.ofNat 16 npc) s) := by
  rw [commitReg, guardValue_le hv, commit_gt h]

theorem withSrc_some {s : State} {w : Operand} {v : Word} (h : val s w = some v)
    (k : Word → Host.Outcome State Fault Refusal) : withSrc w s k = k v := by
  unfold withSrc
  rw [h]

theorem withSrc_none {s : State} {w : Operand} (h : val s w = none)
    (k : Word → Host.Outcome State Fault Refusal) :
    withSrc w s k = .next (faulted .invalidOperand w.word s) := by
  unfold withSrc
  rw [h]
  rfl

theorem withDst_some {s : State} {w : Operand} {r : RegIdx} (h : dst w = some r)
    (k : RegIdx → Host.Outcome State Fault Refusal) : withDst w s k = k r := by
  unfold withDst
  rw [h]

theorem withDst_none {s : State} {w : Operand} (h : dst w = none)
    (k : RegIdx → Host.Outcome State Fault Refusal) :
    withDst w s k = .next (faulted .invalidOperand w.word s) := by
  unfold withDst
  rw [h]
  rfl

theorem reg_of_dst {w : Operand} {r : RegIdx} (h : dst w = some r) : w = .reg r := by
  cases w <;> simp [dst] at h
  rw [h]

theorem legalAs_of_val {s : State} {w : Operand} {v : Word} (h : val s w = some v) :
    w.legalAs .source = true := by
  cases w <;> simp [val] at h ⊢

/-- A source operand resolves exactly when it is legal as one. -/
theorem val_eq_none (s : State) (w : Operand) : val s w = none ↔ w.legalAs .source = false := by
  cases w <;> simp [val, Operand.legalAs]

/-- A destination operand resolves exactly when it is legal as one. -/
theorem dst_eq_none (w : Operand) : dst w = none ↔ w.legalAs .destination = false := by
  cases w <;> simp [dst, Operand.legalAs]

/-- In a state whose registers are legal, a resolved value is at most 32775 (R108). -/
theorem val_le {s : State} (h : ∀ r, (s.reg r).toNat ≤ 32775) {w : Operand} {v : Word}
    (hv : val s w = some v) : v.toNat ≤ 32775 := by
  cases w with
  | lit x =>
    have : x.toNat < 32768 := x.isLt
    simp only [val, Option.some.injEq] at hv
    subst hv
    simp
    omega
  | reg r =>
    simp only [val, Option.some.injEq] at hv
    exact hv ▸ h r
  | invalid w => simp [val] at hv

/-- The sequential next `pc` as a word (R113). -/
theorem ofNat_nextPc (s : State) (k : Nat) :
    BitVec.ofNat 16 (nextPc s k) = s.pc + BitVec.ofNat 16 (k + 1) := by
  apply BitVec.eq_of_toNat_eq
  simp only [nextPc, BitVec.toNat_ofNat, BitVec.toNat_add]
  omega

/-- Committing at the sequential successor when it is inside memory (R113, R115). -/
theorem commit_next {s t : State} {k : Nat} (h : s.pc.toNat + (k + 1) ≤ 32767) :
    commit s t (nextPc s k) = .next { t with
      pc := s.pc + BitVec.ofNat 16 (k + 1), icount := t.icount + 1, outcome := some .retired } := by
  rw [commit_le (by unfold nextPc; omega), State.setPc, ofNat_nextPc]
  rfl

/-- Committing at the sequential successor when it is the first address outside memory (R114). -/
theorem commit_next_top {s t : State} {k : Nat} (h : s.pc.toNat + (k + 1) = 32768) :
    commit s t (nextPc s k) = .next (faulted .addressOutOfRange 32768 s) := by
  rw [commit_gt (by unfold nextPc; omega), show nextPc s k = 32768 by unfold nextPc; omega]
  rfl

theorem commitReg_next {s t : State} {r : RegIdx} {v : Word} {k : Nat} (hv : v.toNat ≤ 32775)
    (h : s.pc.toNat + (k + 1) ≤ 32767) :
    commitReg s t r v (nextPc s k) = .next { t with
      regs := t.regs.set r.val v r.isLt, pc := s.pc + BitVec.ofNat 16 (k + 1),
      icount := t.icount + 1, outcome := some .retired } := by
  rw [commitReg, guardValue_le hv, commit_next h]
  rfl

theorem commitReg_next_top {s t : State} {r : RegIdx} {v : Word} {k : Nat} (hv : v.toNat ≤ 32775)
    (h : s.pc.toNat + (k + 1) = 32768) :
    commitReg s t r v (nextPc s k) = .next (faulted .addressOutOfRange 32768 s) := by
  rw [commitReg, guardValue_le hv, commit_next_top h]

/-- Committing at a target inside memory (R163). -/
theorem commit_target {s t : State} {w : Word} (h : w.toNat ≤ 32767) :
    commit s t w.toNat = .next { t with
      pc := w, icount := t.icount + 1, outcome := some .retired } := by
  rw [commit_le h, State.setPc, BitVec.ofNat_toNat, BitVec.setWidth_eq]
  rfl

/-- Committing at a target outside memory (R163). -/
theorem commit_target_out {s t : State} {w : Word} (h : 32767 < w.toNat) :
    commit s t w.toNat = .next (faulted .addressOutOfRange w s) := by
  rw [commit_gt h, BitVec.ofNat_toNat, BitVec.setWidth_eq]

theorem truthWord_le (b : Bool) : (truthWord b).toNat ≤ 32775 := by
  cases b <;> simp [truthWord]

end Sys2Proof.Machine
end

