-- ==== Sys2Proof/Laws/Fetch.lean ====
section
/-! SUPPORT. What the decoder is given at `pc`. -/
namespace Sys2Proof.Machine

/-- Inside memory the fetch decodes the cell at `pc` and up to three after it. -/
theorem fetch_eq {s : State} (h : s.pc.toNat ≤ 32767) :
    fetch s = decodeFrom (s.mem.wordAt s.pc.toNat) (wordsFrom s.mem (s.pc.toNat + 1) 3) := by
  show decodeWords (wordsFrom s.mem s.pc.toNat (3 + 1)) = _
  rw [wordsFrom, if_pos (by simpa using h)]
  rfl

/-- Outside memory there is no opcode word. -/
theorem fetch_out {s : State} (h : 32767 < s.pc.toNat) : fetch s = .noOpcodeWord := by
  show decodeWords (wordsFrom s.mem s.pc.toNat (3 + 1)) = _
  rw [wordsFrom, if_neg (by simpa using h)]
  rfl

theorem length_wordsFrom_le (m : Memory) (n k : Nat) : (wordsFrom m n k).length ≤ k := by
  induction k generalizing n with
  | zero => simp [wordsFrom]
  | succ k ih =>
    rw [wordsFrom]
    split
    · simpa using ih (n + 1)
    · simp

/-- No word past the last cell is fetched. -/
theorem length_wordsFrom_top (m : Memory) {n j : Nat} (k : Nat) (h : 32767 < n + j) :
    (wordsFrom m n k).length ≤ j := by
  induction k generalizing n j with
  | zero => simp [wordsFrom]
  | succ k ih =>
    rw [wordsFrom]
    split
    · rename_i hn
      simp only [Config.maxAddress] at hn
      rw [List.length_cons]
      have := ih (n := n + 1) (j := j - 1) (by omega)
      omega
    · simp

/-- The cells that hold some code are what is fetched first. -/
theorem wordsFrom_of_codeAt {m : Memory} {ws : List Word} {n k : Nat} (h : CodeAt m n ws)
    (hk : ws.length ≤ k) : ∃ rest, wordsFrom m n k = ws ++ rest := by
  induction ws generalizing n k with
  | nil => exact ⟨_, rfl⟩
  | cons w ws ih =>
    obtain ⟨hn, hw, hr⟩ := h
    obtain ⟨k, rfl⟩ : ∃ j, k = j + 1 := ⟨k - 1, by rw [List.length_cons] at hk; omega⟩
    obtain ⟨rest, he⟩ := ih hr (by simpa using hk)
    exact ⟨rest, by rw [wordsFrom, if_pos (by simpa using hn), hw, he]; rfl⟩

end Sys2Proof.Machine
end

