-- ==== Sys2Proof/Laws/Exec.lean ====
section
/-! SUPPORT. Said once: everything an instruction, and a step, can do to the state. Invariants and frames are
read off these laws. -/
namespace Sys2Proof.Machine

/-- The effect of a retiring instruction on everything but `pc`, `icount` and the report (R111): at most one
register write, one store, one stack change, one character; and which instruction can have which. -/
inductive Effect (i : Instr) (s : State) : State → Prop
  | none : (i = .noop ∨ (∃ a, i = .jmp a) ∨ ∃ a b, i = .jt a b ∨ i = .jf a b) → Effect i s s
  | reg (r : RegIdx) (v : Word) : (Role.destination, Operand.reg r) ∈ i.operands →
      v.toNat ≤ 32775 → Effect i s (s.setReg r v)
  | push (v : Word) : (∃ a, i = .push a ∨ i = .call a) → v.toNat ≤ 32775 → Effect i s (s.push v)
  | pop (a : Operand) (r : RegIdx) (v : Word) : i = .pop a →
      (Role.destination, Operand.reg r) ∈ i.operands → s.top = some v → v.toNat ≤ 32775 →
      Effect i s (s.dropTop.setReg r v)
  | ret (v : Word) : i = .ret → s.top = some v → Effect i s s.dropTop
  | store (a b : Operand) (x v : Word) : i = .wmem a b → val s a = some x → val s b = some v →
      x.toNat ≤ 32767 → v.toNat ≤ 32775 → Effect i s (s.storeWord x.toNat v)
  | emit (a : Operand) (ch : Byte) : i = .out a → Effect i s (s.emit ch)
  | take (a : Operand) (r : RegIdx) (ch : Byte) (rest : List Byte) : i = .inp a →
      (Role.destination, Operand.reg r) ∈ i.operands → s.input = ch :: rest →
      Effect i s (s.dropInput.setReg r (ch.setWidth 16))

/-- What executing an instruction can lead to. -/
inductive Change (i : Instr) (s : State) : State → Prop
  | fault (c : Cause) (w : Word) : Change i s (faulted c w s)
  | wait (a : Operand) : i = .inp a → s.input = [] → Change i s (s.report .inputWait)
  | halt : i = .halt →
      Change i s (((s.setPc (nextPc s 0)).setHalted.count).report .haltRetired)
  | retire (t : State) (npc : Nat) : i ≠ .halt → npc ≤ 32767 → Effect i s t →
      Change i s (((t.setPc npc).count).report .retired)

/-- The outcome is a next state that `Change` describes. -/
def Leads (i : Instr) (s : State) (o : Host.Outcome State Fault Refusal) : Prop :=
  ∃ t, o = .next t ∧ Change i s t

section
variable {i : Instr} {s t : State}

theorem leads_raise (i : Instr) (c : Cause) (w : Word) (s : State) : Leads i s (raise c w s) :=
  ⟨_, rfl, .fault c w⟩

theorem leads_guardAddress {n : Nat} {k : Host.Outcome State Fault Refusal}
    (h : n ≤ 32767 → Leads i s k) : Leads i s (guardAddress n s k) := by
  rcases guardAddress_cases n s k with ⟨hn, he⟩ | ⟨_, he⟩
  · rw [he]; exact h hn
  · exact ⟨_, he, .fault _ _⟩

theorem leads_guardValue {v : Word} {k : Host.Outcome State Fault Refusal}
    (h : v.toNat ≤ 32775 → Leads i s k) : Leads i s (guardValue v s k) := by
  rcases guardValue_cases v s k with ⟨hv, he⟩ | ⟨_, he⟩
  · rw [he]; exact h hv
  · exact ⟨_, he, .fault _ _⟩

theorem leads_commit {npc : Nat} (hi : i ≠ .halt) (h : Effect i s t) : Leads i s (commit s t npc) :=
  leads_guardAddress fun hn => ⟨_, rfl, .retire t npc hi hn h⟩

theorem leads_commitReg {r : RegIdx} {v : Word} {npc : Nat} (hi : i ≠ .halt)
    (h : v.toNat ≤ 32775 → Effect i s (t.setReg r v)) : Leads i s (commitReg s t r v npc) :=
  leads_guardValue fun hv => leads_commit hi (h hv)

theorem leads_withSrc {w : Operand} {k : Word → Host.Outcome State Fault Refusal}
    (h : ∀ v, val s w = some v → Leads i s (k v)) : Leads i s (withSrc w s k) := by
  cases hv : val s w with
  | none => exact ⟨_, withSrc_none hv k, .fault _ _⟩
  | some v => rw [withSrc_some hv]; exact h v hv

theorem leads_withDst {w : Operand} {k : RegIdx → Host.Outcome State Fault Refusal}
    (h : ∀ r, w = .reg r → Leads i s (k r)) : Leads i s (withDst w s k) := by
  cases hr : dst w with
  | none => exact ⟨_, withDst_none hr k, .fault _ _⟩
  | some r => rw [withDst_some hr]; exact h r (reg_of_dst hr)

end

/-- Everything an instruction can do. -/
theorem exec_leads (i : Instr) (s : State) : Leads i s (exec i s) := by
  cases i with
  | halt => exact ⟨_, rfl, .halt rfl⟩
  | noop => exact leads_commit (by simp) (.none (by simp))
  | set a b =>
    exact leads_withDst fun r hr => leads_withSrc fun v _ =>
      leads_commitReg (by simp) (.reg r v (by simp [Instr.operands, hr]))
  | push a =>
    exact leads_withSrc fun v _ => leads_guardValue fun hv =>
      leads_commit (by simp) (.push v ⟨a, .inl rfl⟩ hv)
  | pop a =>
    refine leads_withDst fun r hr => ?_
    cases ht : s.top with
    | none => exact leads_raise _ _ _ s
    | some v =>
      exact leads_commitReg (by simp) (.pop a r v rfl (by simp [Instr.operands, hr]) ht)
  | eq a b c | gt a b c | add a b c | mult a b c | and a b c | or a b c =>
    exact leads_withDst fun r hr => leads_withSrc fun _ _ => leads_withSrc fun _ _ =>
      leads_commitReg (by simp) (.reg r _ (by simp [Instr.operands, hr]))
  | mod a b c =>
    refine leads_withDst fun r hr => leads_withSrc fun x _ => leads_withSrc fun y _ => ?_
    by_cases hy : y.toNat = 0
    · rw [if_pos hy]
      exact leads_raise _ _ _ s
    · rw [if_neg hy]
      exact leads_commitReg (by simp) (.reg r _ (by simp [Instr.operands, hr]))
  | jmp a => exact leads_withSrc fun _ _ => leads_commit (by simp) (.none (by simp))
  | jt a b | jf a b =>
    exact leads_withSrc fun _ _ => leads_withSrc fun _ _ => leads_commit (by simp) (.none (by simp))
  | not a b =>
    exact leads_withDst fun r hr => leads_withSrc fun _ _ =>
      leads_commitReg (by simp) (.reg r _ (by simp [Instr.operands, hr]))
  | rmem a b =>
    exact leads_withDst fun r hr => leads_withSrc fun _ _ => leads_guardAddress fun _ =>
      leads_commitReg (by simp) (.reg r _ (by simp [Instr.operands, hr]))
  | wmem a b =>
    exact leads_withSrc fun x hx => leads_withSrc fun v hv => leads_guardAddress fun hn =>
      leads_guardValue fun hle => leads_commit (by simp) (.store a b x v rfl hx hv hn hle)
  | call a =>
    exact leads_withSrc fun _ _ => leads_guardAddress fun _ => leads_guardValue fun hv =>
      leads_commit (by simp) (.push _ ⟨a, .inr rfl⟩ hv)
  | ret =>
    show Leads _ s (execRet s)
    unfold execRet
    cases ht : s.top with
    | none => exact leads_raise _ _ _ s
    | some v => exact leads_commit (by simp) (.ret v rfl ht)
  | out a => exact leads_withSrc fun _ _ => leads_commit (by simp) (.emit a _ rfl)
  | inp a =>
    refine leads_withDst fun r hr => leads_guardAddress fun _ => ?_
    cases hi : s.input with
    | nil => exact ⟨_, rfl, .wait a rfl hi⟩
    | cons ch rest =>
      exact leads_commitReg (by simp)
        fun _ => .take a r ch rest rfl (by simp [Instr.operands, hr]) hi

/-- Everything a step can do: nothing in a halted core; else the fault of a fetch that gives no instruction,
or what the instruction fetched can do. -/
theorem step_cases (s : State) :
    (s.halted = true ∧ step s = .next (s.report .alreadyHalted)) ∨
    (s.halted = false ∧ ∃ c w, step s = .next (faulted c w s)) ∨
    (s.halted = false ∧ ∃ i rest, fetch s = .ok i rest ∧ step s = exec i s ∧ Leads i s (step s)) := by
  cases hh : s.halted with
  | true => exact .inl ⟨rfl, by simp [step, hh, stayHalted]⟩
  | false =>
    cases hf : fetch s with
    | ok i rest =>
      have hs : step s = exec i s := by simp [step, hh, hf]
      exact .inr (.inr ⟨rfl, i, rest, rfl, hs, by rw [hs]; exact exec_leads i s⟩)
    | noOpcodeWord => exact .inr (.inl ⟨rfl, _, _, by simp only [step, hh, hf]; rfl⟩)
    | invalidOpcode w => exact .inr (.inl ⟨rfl, _, _, by simp only [step, hh, hf]; rfl⟩)
    | operandsMissing k => exact .inr (.inl ⟨rfl, _, _, by simp only [step, hh, hf]; rfl⟩)

/-- In a running core a fetched instruction is what the step executes. -/
theorem step_of_fetch {s : State} {i : Instr} {rest : List Word} (hh : s.halted = false)
    (h : fetch s = .ok i rest) : step s = exec i s := by
  simp [step, hh, h]

end Sys2Proof.Machine
end

