-- ==== Sys2Proof/Laws/PerInstr.lean ====
section
/-! SUPPORT. Laws stated instruction by instruction over the syntax: the shape of every encoding. -/

/-- The words of an instruction: its opcode word, then `arity` operand words, one to four in all
(spec/30_encoding.md R70, R71), and the opcode word is one of 0..21 (R73). -/
def Sys2Proof.Laws.EncodingShape.Statement (i : Sys2Proof.Instr) : Prop :=
  (Sys2Proof.encode i).length = 1 + i.arity ∧ (Sys2Proof.encode i).length ≤ 4 ∧
    (Sys2Proof.encode i).head? = some i.opcodeWord ∧ i.opcodeWord.toNat ≤ 21

theorem Sys2Proof.Laws.EncodingShape.halt :
    Sys2Proof.Laws.EncodingShape.Statement .halt :=
  ⟨by simp [Sys2Proof.encode, Sys2Proof.Instr.arity, Sys2Proof.Instr.operands],
    by simp [Sys2Proof.encode, Sys2Proof.Instr.operands], rfl, Sys2Proof.opcodeWord_le _⟩

theorem Sys2Proof.Laws.EncodingShape.set (a b : Sys2Proof.Operand) :
    Sys2Proof.Laws.EncodingShape.Statement (.set a b) :=
  ⟨by simp [Sys2Proof.encode, Sys2Proof.Instr.arity, Sys2Proof.Instr.operands],
    by simp [Sys2Proof.encode, Sys2Proof.Instr.operands], rfl, Sys2Proof.opcodeWord_le _⟩

theorem Sys2Proof.Laws.EncodingShape.push (a : Sys2Proof.Operand) :
    Sys2Proof.Laws.EncodingShape.Statement (.push a) :=
  ⟨by simp [Sys2Proof.encode, Sys2Proof.Instr.arity, Sys2Proof.Instr.operands],
    by simp [Sys2Proof.encode, Sys2Proof.Instr.operands], rfl, Sys2Proof.opcodeWord_le _⟩

theorem Sys2Proof.Laws.EncodingShape.pop (a : Sys2Proof.Operand) :
    Sys2Proof.Laws.EncodingShape.Statement (.pop a) :=
  ⟨by simp [Sys2Proof.encode, Sys2Proof.Instr.arity, Sys2Proof.Instr.operands],
    by simp [Sys2Proof.encode, Sys2Proof.Instr.operands], rfl, Sys2Proof.opcodeWord_le _⟩

theorem Sys2Proof.Laws.EncodingShape.eq (a b c : Sys2Proof.Operand) :
    Sys2Proof.Laws.EncodingShape.Statement (.eq a b c) :=
  ⟨by simp [Sys2Proof.encode, Sys2Proof.Instr.arity, Sys2Proof.Instr.operands],
    by simp [Sys2Proof.encode, Sys2Proof.Instr.operands], rfl, Sys2Proof.opcodeWord_le _⟩

theorem Sys2Proof.Laws.EncodingShape.gt (a b c : Sys2Proof.Operand) :
    Sys2Proof.Laws.EncodingShape.Statement (.gt a b c) :=
  ⟨by simp [Sys2Proof.encode, Sys2Proof.Instr.arity, Sys2Proof.Instr.operands],
    by simp [Sys2Proof.encode, Sys2Proof.Instr.operands], rfl, Sys2Proof.opcodeWord_le _⟩

theorem Sys2Proof.Laws.EncodingShape.jmp (a : Sys2Proof.Operand) :
    Sys2Proof.Laws.EncodingShape.Statement (.jmp a) :=
  ⟨by simp [Sys2Proof.encode, Sys2Proof.Instr.arity, Sys2Proof.Instr.operands],
    by simp [Sys2Proof.encode, Sys2Proof.Instr.operands], rfl, Sys2Proof.opcodeWord_le _⟩

theorem Sys2Proof.Laws.EncodingShape.jt (a b : Sys2Proof.Operand) :
    Sys2Proof.Laws.EncodingShape.Statement (.jt a b) :=
  ⟨by simp [Sys2Proof.encode, Sys2Proof.Instr.arity, Sys2Proof.Instr.operands],
    by simp [Sys2Proof.encode, Sys2Proof.Instr.operands], rfl, Sys2Proof.opcodeWord_le _⟩

theorem Sys2Proof.Laws.EncodingShape.jf (a b : Sys2Proof.Operand) :
    Sys2Proof.Laws.EncodingShape.Statement (.jf a b) :=
  ⟨by simp [Sys2Proof.encode, Sys2Proof.Instr.arity, Sys2Proof.Instr.operands],
    by simp [Sys2Proof.encode, Sys2Proof.Instr.operands], rfl, Sys2Proof.opcodeWord_le _⟩

theorem Sys2Proof.Laws.EncodingShape.add (a b c : Sys2Proof.Operand) :
    Sys2Proof.Laws.EncodingShape.Statement (.add a b c) :=
  ⟨by simp [Sys2Proof.encode, Sys2Proof.Instr.arity, Sys2Proof.Instr.operands],
    by simp [Sys2Proof.encode, Sys2Proof.Instr.operands], rfl, Sys2Proof.opcodeWord_le _⟩

theorem Sys2Proof.Laws.EncodingShape.mult (a b c : Sys2Proof.Operand) :
    Sys2Proof.Laws.EncodingShape.Statement (.mult a b c) :=
  ⟨by simp [Sys2Proof.encode, Sys2Proof.Instr.arity, Sys2Proof.Instr.operands],
    by simp [Sys2Proof.encode, Sys2Proof.Instr.operands], rfl, Sys2Proof.opcodeWord_le _⟩

theorem Sys2Proof.Laws.EncodingShape.mod (a b c : Sys2Proof.Operand) :
    Sys2Proof.Laws.EncodingShape.Statement (.mod a b c) :=
  ⟨by simp [Sys2Proof.encode, Sys2Proof.Instr.arity, Sys2Proof.Instr.operands],
    by simp [Sys2Proof.encode, Sys2Proof.Instr.operands], rfl, Sys2Proof.opcodeWord_le _⟩

theorem Sys2Proof.Laws.EncodingShape.and (a b c : Sys2Proof.Operand) :
    Sys2Proof.Laws.EncodingShape.Statement (.and a b c) :=
  ⟨by simp [Sys2Proof.encode, Sys2Proof.Instr.arity, Sys2Proof.Instr.operands],
    by simp [Sys2Proof.encode, Sys2Proof.Instr.operands], rfl, Sys2Proof.opcodeWord_le _⟩

theorem Sys2Proof.Laws.EncodingShape.or (a b c : Sys2Proof.Operand) :
    Sys2Proof.Laws.EncodingShape.Statement (.or a b c) :=
  ⟨by simp [Sys2Proof.encode, Sys2Proof.Instr.arity, Sys2Proof.Instr.operands],
    by simp [Sys2Proof.encode, Sys2Proof.Instr.operands], rfl, Sys2Proof.opcodeWord_le _⟩

theorem Sys2Proof.Laws.EncodingShape.not (a b : Sys2Proof.Operand) :
    Sys2Proof.Laws.EncodingShape.Statement (.not a b) :=
  ⟨by simp [Sys2Proof.encode, Sys2Proof.Instr.arity, Sys2Proof.Instr.operands],
    by simp [Sys2Proof.encode, Sys2Proof.Instr.operands], rfl, Sys2Proof.opcodeWord_le _⟩

theorem Sys2Proof.Laws.EncodingShape.rmem (a b : Sys2Proof.Operand) :
    Sys2Proof.Laws.EncodingShape.Statement (.rmem a b) :=
  ⟨by simp [Sys2Proof.encode, Sys2Proof.Instr.arity, Sys2Proof.Instr.operands],
    by simp [Sys2Proof.encode, Sys2Proof.Instr.operands], rfl, Sys2Proof.opcodeWord_le _⟩

theorem Sys2Proof.Laws.EncodingShape.wmem (a b : Sys2Proof.Operand) :
    Sys2Proof.Laws.EncodingShape.Statement (.wmem a b) :=
  ⟨by simp [Sys2Proof.encode, Sys2Proof.Instr.arity, Sys2Proof.Instr.operands],
    by simp [Sys2Proof.encode, Sys2Proof.Instr.operands], rfl, Sys2Proof.opcodeWord_le _⟩

theorem Sys2Proof.Laws.EncodingShape.call (a : Sys2Proof.Operand) :
    Sys2Proof.Laws.EncodingShape.Statement (.call a) :=
  ⟨by simp [Sys2Proof.encode, Sys2Proof.Instr.arity, Sys2Proof.Instr.operands],
    by simp [Sys2Proof.encode, Sys2Proof.Instr.operands], rfl, Sys2Proof.opcodeWord_le _⟩

theorem Sys2Proof.Laws.EncodingShape.ret :
    Sys2Proof.Laws.EncodingShape.Statement .ret :=
  ⟨by simp [Sys2Proof.encode, Sys2Proof.Instr.arity, Sys2Proof.Instr.operands],
    by simp [Sys2Proof.encode, Sys2Proof.Instr.operands], rfl, Sys2Proof.opcodeWord_le _⟩

theorem Sys2Proof.Laws.EncodingShape.out (a : Sys2Proof.Operand) :
    Sys2Proof.Laws.EncodingShape.Statement (.out a) :=
  ⟨by simp [Sys2Proof.encode, Sys2Proof.Instr.arity, Sys2Proof.Instr.operands],
    by simp [Sys2Proof.encode, Sys2Proof.Instr.operands], rfl, Sys2Proof.opcodeWord_le _⟩

theorem Sys2Proof.Laws.EncodingShape.inp (a : Sys2Proof.Operand) :
    Sys2Proof.Laws.EncodingShape.Statement (.inp a) :=
  ⟨by simp [Sys2Proof.encode, Sys2Proof.Instr.arity, Sys2Proof.Instr.operands],
    by simp [Sys2Proof.encode, Sys2Proof.Instr.operands], rfl, Sys2Proof.opcodeWord_le _⟩

theorem Sys2Proof.Laws.EncodingShape.noop :
    Sys2Proof.Laws.EncodingShape.Statement .noop :=
  ⟨by simp [Sys2Proof.encode, Sys2Proof.Instr.arity, Sys2Proof.Instr.operands],
    by simp [Sys2Proof.encode, Sys2Proof.Instr.operands], rfl, Sys2Proof.opcodeWord_le _⟩
end

