-- ==== Sys2Proof/Tests/Slice0.lean ====
section
/-! SUPPORT. The model's own tests. The expected values of the decode tests are read from the table of
spec/30_encoding.md R73 and the classes of spec/00_scope.md R7; those of the single steps are the vectors of
spec/95_test_vectors.md, named in each docstring. The witnesses at the end show, for every statement with
hypotheses, a state and operands that meet them. -/
namespace Sys2Proof.Tests

open Sys2Proof.Machine

/-! ## Ill-formed instructions are refused -/

/-- R77: an invalid word is no source. -/
theorem test_wellFormed_refuses_invalid_source :
    (Instr.push (.invalid 32776)).wellFormed = false := by decide

/-- R79: a literal is no destination. -/
theorem test_wellFormed_refuses_literal_destination :
    (Instr.set (.lit 5) (.lit 6)).wellFormed = false := by decide

/-- R79: an invalid word is no destination. -/
theorem test_wellFormed_refuses_invalid_destination :
    (Instr.inp (.invalid 65535)).wellFormed = false := by decide

/-- R76: a literal address is a source of `wmem`, and legal. -/
theorem test_wellFormed_accepts_literal_address :
    (Instr.wmem (.lit 2000) (.reg 0)).wellFormed = true := by decide

/-- R7: the classes are disjoint, so no word is an invalid operand worth 5. -/
theorem test_canonical_refuses_small_invalid :
    (Instr.push (.invalid 5)).canonical = false := by decide

/-- R31, R262: bytes out of order, a listed fill byte and a byte past the last cell are not canonical. -/
theorem test_memory_wf_refuses :
    ¬ Memory.wf [(4, 1), (2, 1)] ∧ ¬ Memory.wf [(4, 0)] ∧ ¬ Memory.wf [(65536, 1)] := by decide

/-! ## Every constructor's decoding, from words written out -/

theorem test_decode_halt : decodeWords [0] = .ok .halt [] := by decide

theorem test_decode_set : decodeWords [1, 32775, 32769] = .ok (.set (.reg 7) (.reg 1)) [] := by decide

theorem test_decode_push : decodeWords [2, 5] = .ok (.push (.lit 5)) [] := by decide

theorem test_decode_pop : decodeWords [3, 32771] = .ok (.pop (.reg 3)) [] := by decide

theorem test_decode_eq : decodeWords [4, 32768, 32769, 7] = .ok (.eq (.reg 0) (.reg 1) (.lit 7)) [] := by decide

theorem test_decode_gt : decodeWords [5, 32770, 10, 3] = .ok (.gt (.reg 2) (.lit 10) (.lit 3)) [] := by decide

theorem test_decode_jmp : decodeWords [6, 32770] = .ok (.jmp (.reg 2)) [] := by decide

theorem test_decode_jt : decodeWords [7, 32768, 200] = .ok (.jt (.reg 0) (.lit 200)) [] := by decide

theorem test_decode_jf : decodeWords [8, 0, 77] = .ok (.jf (.lit 0) (.lit 77)) [] := by decide

theorem test_decode_add : decodeWords [9, 32768, 32767, 5] = .ok (.add (.reg 0) (.lit 32767) (.lit 5)) [] := by decide

theorem test_decode_mult : decodeWords [10, 32772, 200, 32773] = .ok (.mult (.reg 4) (.lit 200) (.reg 5)) [] := by decide

theorem test_decode_mod : decodeWords [11, 32768, 32769, 7] = .ok (.mod (.reg 0) (.reg 1) (.lit 7)) [] := by decide

theorem test_decode_and : decodeWords [12, 32774, 32527, 4080] = .ok (.and (.reg 6) (.lit 32527) (.lit 4080)) [] := by decide

theorem test_decode_or : decodeWords [13, 5, 3840, 255] = .ok (.or (.lit 5) (.lit 3840) (.lit 255)) [] := by decide

theorem test_decode_not : decodeWords [14, 32768, 21845] = .ok (.not (.reg 0) (.lit 21845)) [] := by decide

theorem test_decode_rmem : decodeWords [15, 32769, 1000] = .ok (.rmem (.reg 1) (.lit 1000)) [] := by decide

theorem test_decode_wmem : decodeWords [16, 2000, 32775] = .ok (.wmem (.lit 2000) (.reg 7)) [] := by decide

theorem test_decode_call : decodeWords [17, 200] = .ok (.call (.lit 200)) [] := by decide

theorem test_decode_ret : decodeWords [18] = .ok .ret [] := by decide

theorem test_decode_out : decodeWords [19, 97] = .ok (.out (.lit 97)) [] := by decide

theorem test_decode_in : decodeWords [20, 32768] = .ok (.inp (.reg 0)) [] := by decide

theorem test_decode_noop : decodeWords [21] = .ok .noop [] := by decide

/-- R78, 95_test_vectors.md V-decode-1, V-decode-2, V-decode-4. -/
theorem test_decode_refuses_opcodes :
    decodeWords [22, 0, 0, 0] = .invalidOpcode 22 ∧ decodeWords [32768] = .invalidOpcode 32768 ∧
    decodeWords [256] = .invalidOpcode 256 := by decide

/-- R84: `jt` with one operand word left. -/
theorem test_decode_operands_missing : decodeWords [7, 1] = .operandsMissing 2 := by decide

/-- E4: the bytes 13 00 61 00 00 00 are `out 97` and then `halt`. -/
theorem test_decode_bytes :
    decode [0x13, 0x00, 0x61, 0x00, 0x00, 0x00] = .ok (.out (.lit 97)) [0] := by decide

/-- Bit 0 of the table's numbering is the least significant bit of the first word, and operand words the table
gives no bits read 0. -/
theorem test_decodeTableWord :
    decodeTableWord 16 1 = some (.set (.lit 0) (.lit 0)) ∧
    decodeTableWord 64 0x0005_7FFF_8000_0009 = some (.add (.reg 0) (.lit 32767) (.lit 5)) ∧
    decodeTableWord 16 22 = none := by decide

/-- R91: the words of `add reg0 reg1 4` and of `wmem 2000 reg7`. -/
theorem test_encode :
    encode (.add (.reg 0) (.reg 1) (.lit 4)) = [9, 32768, 32769, 4] ∧
    encode (.wmem (.lit 2000) (.reg 7)) = [16, 2000, 32775] := by decide

/-! ## Single steps -/

/-- A running core with these words at `pc`; all else as after reset. -/
def launch (pc : Nat) (words : List Word) : State :=
  { State.reset with pc := BitVec.ofNat 16 pc, mem := Memory.placeWords [] pc words }

/-- The next state of an outcome. -/
def nextOf (s : State) : Host.Outcome State Fault Refusal → State
  | .next t => t
  | .fault _ => s
  | .refused _ => s

/-- The state after one step. -/
def after (s : State) : State := nextOf s (step s)

/-- The state after executing one instruction. -/
def done (i : Instr) (s : State) : State := nextOf s (exec i s)

theorem exec_next (i : Instr) (s : State) : exec i s = .next (done i s) := by
  obtain ⟨t, ht, _⟩ := exec_leads i s
  simp [done, ht, nextOf]

theorem step_next (s : State) : step s = .next (after s) := by
  have h : ∃ t, step s = .next t := by
    rcases step_cases s with ⟨_, h⟩ | ⟨_, _, _, h⟩ | ⟨_, _, _, _, _, t, h, _⟩ <;> exact ⟨_, h⟩
  obtain ⟨t, ht⟩ := h
  simp [after, ht, nextOf]

/-- V-decode-5. -/
theorem test_step_illegal_opcode :
    let t := after (launch 32767 [4660])
    t.halted = true ∧ t.pc = 32767 ∧ t.outcome = some (.fault .invalidOpcode 4660) := by
  decide

/-- R101, R233. -/
theorem test_step_already_halted :
    let t := after { launch 0 [21] with halted := true }
    t.pc = 0 ∧ t.icount = 0 ∧ t.outcome = some .alreadyHalted := by
  decide

/-- V-halt-2. -/
theorem test_step_halt :
    let t := after (launch 32767 [0])
    t.halted = true ∧ t.pc = 32768 ∧ t.icount = 1 ∧ t.outcome = some .haltRetired := by
  decide

/-- V-noop-1. -/
theorem test_step_noop :
    let t := after (launch 100 [21])
    t.pc = 101 ∧ t.icount = 1 ∧ t.outcome = some .retired := by
  decide

/-- V-noop-2. -/
theorem test_step_noop_top :
    let t := after (launch 32767 [21])
    t.halted = true ∧ t.pc = 32767 ∧ t.icount = 0 ∧
    t.outcome = some (.fault .addressOutOfRange 32768) := by
  decide

/-- V-set-3. -/
theorem test_step_set_unreduced :
    let t := after ((launch 0 [1, 32768, 32769]).setReg 1 32770)
    t.reg 0 = 32770 ∧ t.pc = 3 ∧ t.outcome = some .retired := by
  decide

/-- V-set-8. -/
theorem test_step_set_first_bad_operand :
    let t := after (launch 0 [1, 32776, 65535])
    t.halted = true ∧ t.pc = 0 ∧ t.outcome = some (.fault .invalidOperand 32776) := by
  decide

/-- V-push-1. -/
theorem test_step_push :
    let t := after { launch 0 [2, 5] with stack := [9] }
    t.stack = [9, 5] ∧ t.pc = 2 ∧ t.outcome = some .retired := by
  decide

/-- V-push-4. -/
theorem test_step_push_top :
    let t := after (launch 32766 [2, 5])
    t.stack = [] ∧ t.pc = 32766 ∧ t.outcome = some (.fault .addressOutOfRange 32768) := by
  decide

/-- V-pop-1. -/
theorem test_step_pop :
    let t := after { launch 0 [3, 32768] with stack := [5, 6] }
    t.reg 0 = 6 ∧ t.stack = [5] ∧ t.pc = 2 ∧ t.outcome = some .retired := by
  decide

/-- V-pop-2. -/
theorem test_step_pop_underflow :
    let t := after (launch 0 [3, 32768])
    t.halted = true ∧ t.pc = 0 ∧ t.outcome = some (.fault .stackUnderflow 0) := by
  decide

/-- V-eq-3. -/
theorem test_step_eq_full_values :
    let t := after (((launch 0 [4, 32768, 32769, 0]).setReg 0 5).setReg 1 32768)
    t.reg 0 = 0 ∧ t.pc = 4 ∧ t.outcome = some .retired := by
  decide

/-- V-eq-4. -/
theorem test_step_eq_same_register :
    let t := after ((launch 0 [4, 32768, 32768, 32768]).setReg 0 500)
    t.reg 0 = 1 ∧ t.pc = 4 ∧ t.outcome = some .retired := by
  decide

/-- V-gt-5. -/
theorem test_step_gt_unsigned :
    let t := after ((launch 0 [5, 32768, 32769, 32767]).setReg 1 32768)
    t.reg 0 = 1 ∧ t.pc = 4 ∧ t.outcome = some .retired := by
  decide

/-- V-gt-2. -/
theorem test_step_gt_order :
    let t := after ((launch 0 [5, 32768, 3, 10]).setReg 0 9)
    t.reg 0 = 0 ∧ t.pc = 4 ∧ t.outcome = some .retired := by
  decide

/-- V-jmp-2. -/
theorem test_step_jmp_register :
    let t := after ((launch 0 [6, 32770]).setReg 2 4000)
    t.pc = 4000 ∧ t.icount = 1 ∧ t.outcome = some .retired := by
  decide

/-- V-jmp-6. -/
theorem test_step_jmp_operand_past_end :
    let t := after (launch 32767 [6])
    t.pc = 32767 ∧ t.outcome = some (.fault .addressOutOfRange 32768) := by
  decide

/-- V-jt-6. -/
theorem test_step_jt_not_taken_ignores_target :
    let t := after ((launch 0 [7, 0, 32769]).setReg 1 32770)
    t.pc = 3 ∧ t.outcome = some .retired := by
  decide

/-- V-jt-9. -/
theorem test_step_jt_taken_at_top :
    let t := after (launch 32765 [7, 1, 5])
    t.pc = 5 ∧ t.outcome = some .retired := by
  decide

/-- V-jf-1. -/
theorem test_step_jf_taken :
    let t := after (launch 0 [8, 32770, 500])
    t.pc = 500 ∧ t.outcome = some .retired := by
  decide

/-- V-jf-4. -/
theorem test_step_jf_target_out_of_range :
    let t := after ((launch 0 [8, 0, 32768]).setReg 0 32775)
    t.pc = 0 ∧ t.outcome = some (.fault .addressOutOfRange 32775) := by
  decide

/-- V-add-1. -/
theorem test_step_add :
    let t := after (launch 0 [9, 32768, 32767, 5])
    t.reg 0 = 4 ∧ t.pc = 4 ∧ t.icount = 1 ∧ t.outcome = some .retired := by
  decide

/-- V-add-4. -/
theorem test_step_add_doubles :
    let t := after ((launch 0 [9, 32768, 32768, 32768]).setReg 0 20000)
    t.reg 0 = 7232 ∧ t.outcome = some .retired := by
  decide

/-- V-mult-1. -/
theorem test_step_mult :
    let t := after (launch 0 [10, 32768, 200, 200])
    t.reg 0 = 7232 ∧ t.pc = 4 ∧ t.outcome = some .retired := by
  decide

/-- V-mult-4. -/
theorem test_step_mult_full_product :
    let t := after ((launch 0 [10, 32768, 32769, 32769]).setReg 1 32775)
    t.reg 0 = 49 ∧ t.outcome = some .retired := by
  decide

/-- V-mod-8. -/
theorem test_step_mod_reduced_after :
    let t := after (((launch 0 [11, 32768, 32769, 32770]).setReg 1 32769).setReg 2 32775)
    t.reg 0 = 1 ∧ t.pc = 4 ∧ t.outcome = some .retired := by
  decide

/-- V-mod-6. -/
theorem test_step_mod_by_zero :
    let t := after ((launch 0 [11, 32768, 10, 32769]).setReg 0 4)
    t.reg 0 = 4 ∧ t.pc = 0 ∧ t.outcome = some (.fault .divideByZero 0) := by
  decide

/-- V-and-1. -/
theorem test_step_and :
    let t := after (launch 0 [12, 32768, 32527, 4080])
    t.reg 0 = 3840 ∧ t.pc = 4 ∧ t.outcome = some .retired := by
  decide

/-- V-and-4. -/
theorem test_step_and_clears_bit15 :
    let t := after (((launch 0 [12, 32768, 32769, 32770]).setReg 1 32770).setReg 2 32775)
    t.reg 0 = 2 ∧ t.outcome = some .retired := by
  decide

/-- V-or-1. -/
theorem test_step_or :
    let t := after (launch 0 [13, 32768, 3840, 255])
    t.reg 0 = 4095 ∧ t.pc = 4 ∧ t.outcome = some .retired := by
  decide

/-- V-or-2. -/
theorem test_step_or_register_value :
    let t := after ((launch 0 [13, 32768, 32769, 1]).setReg 1 32770)
    t.reg 0 = 3 ∧ t.outcome = some .retired := by
  decide

/-- V-not-3. -/
theorem test_step_not :
    let t := after (launch 0 [14, 32768, 21845])
    t.reg 0 = 10922 ∧ t.pc = 3 ∧ t.outcome = some .retired := by
  decide

/-- V-not-4. -/
theorem test_step_not_bit15 :
    let t := after ((launch 0 [14, 32768, 32769]).setReg 1 32770)
    t.reg 0 = 32765 ∧ t.outcome = some .retired := by
  decide

/-- V-rmem-2. -/
theorem test_step_rmem :
    let t := after (((launch 0 [15, 32768, 32769]).setReg 1 1000).storeWord 1000 42)
    t.reg 0 = 42 ∧ t.pc = 3 ∧ t.outcome = some .retired := by
  decide

/-- V-rmem-4. -/
theorem test_step_rmem_value_fault :
    let t := after (((launch 0 [15, 32768, 1000]).setReg 0 3).storeWord 1000 32776)
    t.reg 0 = 3 ∧ t.pc = 0 ∧ t.outcome = some (.fault .valueOutOfRange 32776) := by
  decide

/-- V-wmem-3. -/
theorem test_step_wmem :
    let t := after ((launch 0 [16, 2000, 32768]).setReg 0 32775)
    t.mem.wordAt 2000 = 32775 ∧ t.pc = 3 ∧ t.outcome = some .retired := by
  decide

/-- V-wmem-5. -/
theorem test_step_wmem_own_operand :
    let t := after (launch 0 [16, 2, 55])
    t.mem.wordAt 0 = 16 ∧ t.mem.wordAt 1 = 2 ∧ t.mem.wordAt 2 = 55 ∧ t.pc = 3 ∧
    t.outcome = some .retired := by
  decide

/-- V-call-2. -/
theorem test_step_call :
    let t := after { (launch 0 [17, 32768]).setReg 0 300 with stack := [1] }
    t.stack = [1, 2] ∧ t.pc = 300 ∧ t.outcome = some .retired := by
  decide

/-- V-call-4. -/
theorem test_step_call_at_top :
    let t := after (launch 32766 [17, 0])
    t.stack = [32768] ∧ t.pc = 0 ∧ t.outcome = some .retired := by
  decide

/-- V-ret-5. -/
theorem test_step_ret :
    let t := after { launch 32767 [18] with stack := [4] }
    t.stack = [] ∧ t.pc = 4 ∧ t.outcome = some .retired := by
  decide

/-- V-ret-3. -/
theorem test_step_ret_bad_target :
    let t := after { launch 205 [18] with stack := [3, 32768] }
    t.stack = [3, 32768] ∧ t.pc = 205 ∧
    t.outcome = some (.fault .addressOutOfRange 32768) := by
  decide

/-- V-out-2. -/
theorem test_step_out_low_bits :
    let t := after (launch 0 [19, 353])
    t.output = [97] ∧ t.pc = 2 ∧ t.outcome = some .retired := by
  decide

/-- V-out-5. -/
theorem test_step_out_top :
    let t := after (launch 32766 [19, 65])
    t.output = [] ∧ t.pc = 32766 ∧ t.outcome = some (.fault .addressOutOfRange 32768) := by
  decide

/-- V-in-1. -/
theorem test_step_in :
    let t := after { launch 0 [20, 32768] with input := [104, 105] }
    t.reg 0 = 104 ∧ t.input = [105] ∧ t.pc = 2 ∧ t.outcome = some .retired := by
  decide

/-- V-in-2. -/
theorem test_step_in_waits :
    let t := after (launch 0 [20, 32768])
    t.halted = false ∧ t.pc = 0 ∧ t.icount = 0 ∧ t.outcome = some .inputWait := by
  decide

/-! ## Witnesses: states and operands that meet the hypotheses of each statement -/

theorem witness_OpcodeWordIsComparedWhole :
    (21 : Word).toNat ≤ 21 ∧ 3 ≤ ([0, 0, 0] : List Word).length ∧
    22 ≤ (22 : Word).toNat ∧ 22 ≤ (65535 : Word).toNat := by decide

theorem witness_LengthFromOpcodeWordAlone :
    decodeWords [9, 32768, 1, 2, 7] = .ok (.add (.reg 0) (.lit 1) (.lit 2)) [7] ∧
    decodeWords [9, 5, 65535, 3] = .ok (.add (.lit 5) (.invalid 65535) (.lit 3)) [] := by decide

/-- The classes at the ends of their ranges. -/
theorem witness_OperandWordClasses :
    classify 0 = .lit 0 ∧ classify 32767 = .lit 32767 ∧ classify 32768 = .reg 0 ∧
    classify 32775 = .reg 7 ∧ classify 32776 = .invalid 32776 ∧
    classify 65535 = .invalid 65535 := by decide

theorem witness_DecodeOfEncode :
    (Instr.eq (.invalid 32776) (.lit 32767) (.reg 7)).canonical = true := by decide

theorem witness_EncodeOfDecode :
    decodeWords [4, 32776, 32767, 32775, 1] =
      .ok (.eq (.invalid 32776) (.lit 32767) (.reg 7)) [1] := by decide

theorem witness_OperandResolution :
    (32767 : Word).toNat ≤ 32767 ∧
    (32768 ≤ (32768 : Word).toNat ∧ (32768 : Word).toNat - 32768 < 8) ∧
    (32768 ≤ (32775 : Word).toNat ∧ (32775 : Word).toNat - 32768 < 8) ∧
    32776 ≤ (32776 : Word).toNat := by decide

theorem witness_StepRunsDecodedInstruction :
    (launch 32766 [17, 0]).halted = false ∧
    fetch (launch 32766 [17, 0]) = .ok (.call (.lit 0)) [] ∧
    (Instr.call (.lit 0)).canonical = true ∧
    CodeAt (launch 32766 [17, 0]).mem (launch 32766 [17, 0]).pc.toNat (encode (.call (.lit 0))) := by
  refine ⟨by decide, by decide, by decide, ?_⟩
  exact ⟨by decide, by decide, by decide, by decide, trivial⟩

theorem witness_PlacedWordIsExecuted :
    (launch 32764 []).mem.wf ∧ (launch 32764 []).pc.toNat ≤ 32764 ∧
    decodeTableWord 64 0x0005_7FFF_8000_0009 = some (.add (.reg 0) (.lit 32767) (.lit 5)) := by decide

theorem witness_HaltedStepDoesNothing : (after (launch 32767 [0])).halted = true := by decide

theorem witness_IllegalOpcodeFaults :
    Running (launch 32767 [22]) ∧
    21 < ((launch 32767 [22]).mem.wordAt (launch 32767 [22]).pc.toNat).toNat := by
  unfold Running
  decide

theorem witness_OperandFetchPastTopFaults :
    Running (launch 32767 [6]) ∧
    (launch 32767 [6]).mem.wordAt (launch 32767 [6]).pc.toNat = (Instr.jmp (.lit 0)).opcodeWord ∧
    32767 < (launch 32767 [6]).pc.toNat + (Instr.jmp (.lit 0)).arity := by
  unfold Running
  decide

theorem witness_FirstIllegalOperandFaults :
    firstBadOperand (.gt (.reg 0) (.invalid 32776) (.invalid 65535)) = some 32776 ∧
    firstBadOperand (.set (.lit 32767) (.lit 6)) = some 32767 ∧
    Instr.noop.wellFormed = true ∧
    exec .noop State.reset = .next (done .noop State.reset) :=
  ⟨by decide, by decide, by decide, exec_next _ _⟩

theorem witness_FaultsArePrecise :
    step (launch 205 [18]) = .next (after (launch 205 [18])) ∧
    (after (launch 205 [18])).outcome = some (.fault .stackUnderflow 0) :=
  ⟨step_next _, by decide⟩

theorem witness_InputWaitChangesNothing :
    step (launch 0 [20, 32768]) = .next (after (launch 0 [20, 32768])) ∧
    (after (launch 0 [20, 32768])).outcome = some .inputWait :=
  ⟨step_next _, by decide⟩

/-- A retired instruction, a retired `halt`, a fault and a wait. -/
theorem witness_InstructionCounterRule :
    (after (launch 0 [21])).outcome = some .retired ∧
    (after (launch 0 [0])).outcome = some .haltRetired ∧
    (after (launch 0 [22])).outcome = some (.fault .invalidOpcode 22) ∧
    (after (launch 0 [20, 32768])).outcome = some .inputWait ∧
    step (launch 0 [21]) = .next (after (launch 0 [21])) :=
  ⟨by decide, by decide, by decide, by decide, step_next _⟩

theorem witness_HaltedFlagRule :
    step (after (launch 0 [0])) = .next (after (after (launch 0 [0]))) ∧
    (after (launch 0 [0])).halted = true ∧ (after (launch 0 [21])).halted = false :=
  ⟨step_next _, by decide, by decide⟩

/-- A legal state with a register-reference value in a register, and the step of it. -/
theorem witness_StepKeepsLegal :
    Legal (((launch 0 [16, 2000, 32768]).setReg 0 32775)) ∧
    step ((launch 0 [16, 2000, 32768]).setReg 0 32775) =
      .next (after ((launch 0 [16, 2000, 32768]).setReg 0 32775)) :=
  ⟨by decide, step_next _⟩

theorem witness_BootedStatesAreLegal :
    bootImage [21, 0, 255, 255] = some { State.reset with mem := [(0, 21), (2, 255), (3, 255)] } := by
  decide

theorem witness_ReachableStatesAreLegal :
    Reachable { State.reset with mem := [(0, 21), (2, 255), (3, 255)] } :=
  .boot witness_BootedStatesAreLegal

theorem witness_HaltedStatesAreFinal : (launch 0 [0]).setHalted.halted = true := by decide

theorem witness_LaterInputIsInvisible :
    step { launch 0 [20, 32768] with input := [104] } =
      .next (after { launch 0 [20, 32768] with input := [104] }) ∧
    (after { launch 0 [20, 32768] with input := [104] }).outcome ≠ some .inputWait :=
  ⟨step_next _, by decide⟩

theorem witness_OnlyTheDestinationRegisterChanges :
    exec (.set (.reg 7) (.lit 9)) State.reset = .next (done (.set (.reg 7) (.lit 9)) State.reset) ∧
    (done (.set (.reg 7) (.lit 9)) State.reset).reg 7 ≠ State.reset.reg 7 :=
  ⟨exec_next _ _, by decide⟩

theorem witness_OnlyWmemChangesMemory :
    (exec .noop State.reset = .next (done .noop State.reset) ∧ ∀ a b, Instr.noop ≠ .wmem a b) ∧
    (State.reset.mem.wf ∧ val State.reset (.lit 32767) = some 32767 ∧
      exec (.wmem (.lit 32767) (.lit 1)) State.reset =
        .next (done (.wmem (.lit 32767) (.lit 1)) State.reset) ∧
      (0 : Nat) ≠ 2 * (32767 : Word).toNat ∧ (0 : Nat) ≠ 2 * (32767 : Word).toNat + 1) :=
  ⟨⟨exec_next _ _, by simp⟩, by decide, by decide, exec_next _ _, by decide, by decide⟩

theorem witness_OnlyStackInstructionsChangeTheStack :
    exec (.push (.lit 5)) State.reset = .next (done (.push (.lit 5)) State.reset) ∧
    (done (.push (.lit 5)) State.reset).stack ≠ State.reset.stack :=
  ⟨exec_next _ _, by decide⟩

theorem witness_OnlyOutAndInTouchTheChannels :
    exec (.out (.lit 97)) State.reset = .next (done (.out (.lit 97)) State.reset) ∧
    (done (.out (.lit 97)) State.reset).output ≠ State.reset.output :=
  ⟨exec_next _ _, by decide⟩

/-- Each cause an instruction's execution can raise. -/
theorem witness_FaultCausesByInstruction :
    Legal ((launch 0 [15, 32768, 1000]).storeWord 1000 65535) ∧
    (done (.rmem (.reg 0) (.lit 1000)) ((launch 0 [15, 32768, 1000]).storeWord 1000 65535)).outcome =
      some (.fault .valueOutOfRange 65535) ∧
    (done (.pop (.lit 5)) State.reset).outcome = some (.fault .invalidOperand 5) ∧
    (done .ret State.reset).outcome = some (.fault .stackUnderflow 0) ∧
    (done .noop (launch 32767 [21])).outcome = some (.fault .addressOutOfRange 32768) ∧
    (done (.mod (.reg 0) (.lit 1) (.lit 0)) State.reset).outcome = some (.fault .divideByZero 0) ∧
    Legal State.reset ∧ exec .ret State.reset = .next (done .ret State.reset) :=
  ⟨by decide, by decide, by decide, by decide, by decide, by decide, by decide, exec_next _ _⟩

/-- A `wmem` at 0 whose target is cell 3, the next `pc`, with an illegal opcode word and with each of the
one-word instructions. -/
theorem witness_StoreIsSeenByTheNextFetch :
    Legal (launch 0 [16, 3, 22]) ∧ (launch 0 [16, 3, 22]).halted = false ∧
    (∀ v : BitVec 15, exec (.wmem (.lit 3) (.lit v)) (launch 0 [16, 3, 22]) =
      .next (done (.wmem (.lit 3) (.lit v)) (launch 0 [16, 3, 22]))) ∧
    (done (.wmem (.lit 3) (.lit 22)) (launch 0 [16, 3, 22])).outcome = some .retired ∧
    (done (.wmem (.lit 3) (.lit 0)) (launch 0 [16, 3, 22])).outcome = some .retired ∧
    (done (.wmem (.lit 3) (.lit 18)) (launch 0 [16, 3, 22])).outcome = some .retired ∧
    (done (.wmem (.lit 3) (.lit 21)) (launch 0 [16, 3, 22])).outcome = some .retired ∧
    (done (.wmem (.lit 3) (.lit 22)) (launch 0 [16, 3, 22])).pc = 3 ∧
    (done (.wmem (.lit 3) (.lit 0)) (launch 0 [16, 3, 22])).pc = 3 ∧
    (done (.wmem (.lit 3) (.lit 18)) (launch 0 [16, 3, 22])).pc = 3 ∧
    (done (.wmem (.lit 3) (.lit 21)) (launch 0 [16, 3, 22])).pc = 3 :=
  ⟨by decide, by decide, fun _ => exec_next _ _, by decide, by decide, by decide, by decide, by decide,
    by decide, by decide, by decide⟩

/-- Budget 1 of `noop` then `halt` is used up; budget 2 is not. -/
theorem witness_BudgetsAdd :
    run 1 (launch 0 [21, 0]) = .next (after (launch 0 [21, 0]), .executionLimitExceeded) ∧
    run 2 (launch 0 [21, 0]) = .next (after (after (launch 0 [21, 0])), .stepStopped) := by
  refine ⟨?_, ?_⟩
  · simp only [run, step_next]
    rw [if_pos (by decide)]
  · simp only [run, step_next]
    rw [if_pos (by decide), if_neg (by decide)]

theorem witness_BudgetCountsRetiredInstructions :
    run 1 (launch 0 [21, 0]) = .next (after (launch 0 [21, 0]), .executionLimitExceeded) ∧ 0 < 1 ∧
    run 2 (launch 0 [21, 0]) = .next (after (after (launch 0 [21, 0])), .stepStopped) :=
  ⟨witness_BudgetsAdd.1, by decide, witness_BudgetsAdd.2⟩

theorem witness_ImageLoad :
    ([1] : List Byte).length % 2 = 1 ∧ 65536 < (List.replicate 65538 (0 : Byte)).length ∧
    ([21, 0] : List Byte).length % 2 = 0 ∧ ([21, 0] : List Byte).length ≤ 65536 ∧
    ([21, 0] : List Byte)[2 * 0]? = some 21 ∧ ([21, 0] : List Byte)[2 * 0 + 1]? = some 0 ∧
    ([21, 0] : List Byte).length ≤ 2 * 1 :=
  ⟨by decide, by rw [List.length_replicate]; decide, by decide, by decide, by decide, by decide,
    by decide⟩

theorem witness_HostRegisterPort :
    7 < 8 ∧ 8 ≤ 8 ∧ (32775 : Word).toNat ≤ 32775 ∧ 32775 < (32776 : Word).toNat ∧
    (0 : RegIdx).val ≠ 7 := by decide

theorem witness_HostMemoryPort :
    State.reset.mem.wf ∧ 32767 ≤ 32767 ∧ 32767 < 32768 ∧ (32775 : Word).toNat ≤ 32775 ∧
    32775 < (32776 : Word).toNat := by decide

/-! The instructions. The states below stand at the ends of the `pc` ranges the rules name. -/

/-- The first illegal operand word, an operand fetch past the end and a legal state at it: the hypotheses of
`CommonRules`, for one instruction of each arity. -/
theorem witness_CommonRules :
    firstBadOperand (.push (.invalid 32776)) = some 32776 ∧
    firstBadOperand (.not (.reg 0) (.invalid 65535)) = some 65535 ∧
    firstBadOperand (.add (.lit 0) (.lit 1) (.lit 1)) = some 0 ∧
    Running (launch 32765 [9, 32768, 1]) ∧
    (launch 32765 [9, 32768, 1]).mem.wordAt (launch 32765 [9, 32768, 1]).pc.toNat =
      (Instr.add (.reg 0) (.lit 1) (.lit 1)).opcodeWord ∧
    32767 < (launch 32765 [9, 32768, 1]).pc.toNat + (Instr.add (.reg 0) (.lit 1) (.lit 1)).arity := by
  unfold Running
  decide

/-- SetRule, and the shape of NotRule: `pc` at each end. -/
theorem witness_SetRule :
    dst (.reg 7) = some 7 ∧
    (Legal ((launch 32764 []).setReg 1 32775) ∧
      val ((launch 32764 []).setReg 1 32775) (.reg 1) = some 32775 ∧
      ((launch 32764 []).setReg 1 32775).pc.toNat + 3 ≤ 32767) ∧
    (Legal (launch 32765 []) ∧ val (launch 32765 []) (.lit 32767) = some 32767 ∧
      (launch 32765 []).pc.toNat + 3 = 32768) := by decide

theorem witness_NotRule :
    dst (.reg 7) = some 7 ∧
    (val (launch 32764 []) (.lit 32767) = some 32767 ∧ (launch 32764 []).pc.toNat + 3 ≤ 32767) ∧
    (val (launch 32765 []) (.lit 0) = some 0 ∧ (launch 32765 []).pc.toNat + 3 = 32768) := by decide

theorem witness_PushRule :
    (Legal (launch 32765 []) ∧ val (launch 32765 []) (.lit 5) = some 5 ∧
      (launch 32765 []).pc.toNat + 2 ≤ 32767) ∧
    (Legal (launch 32766 []) ∧ val (launch 32766 []) (.reg 0) = some 0 ∧
      (launch 32766 []).pc.toNat + 2 = 32768) := by decide

theorem witness_OutRule :
    (val (launch 32765 []) (.lit 353) = some 353 ∧ (launch 32765 []).pc.toNat + 2 ≤ 32767) ∧
    (val (launch 32766 []) (.lit 65) = some 65 ∧ (launch 32766 []).pc.toNat + 2 = 32768) := by decide

theorem witness_PopRule :
    dst (.reg 0) = some 0 ∧ (Legal (launch 0 []) ∧ (launch 0 []).stack = []) ∧
    (Legal { launch 32765 [] with stack := [5, 32775] } ∧
      { launch 32765 [] with stack := [5, 32775] }.stack = [5] ++ [32775] ∧
      (launch 32765 []).pc.toNat + 2 ≤ 32767) ∧
    (Legal { launch 32766 [] with stack := [5] } ∧
      { launch 32766 [] with stack := [5] }.stack = [] ++ [5] ∧
      (launch 32766 []).pc.toNat + 2 = 32768) := by decide

/-- EqRule, GtRule, AddRule, MultRule, AndRule and OrRule: two sources and a destination, `pc` at each end. -/
theorem witness_TwoSourceRules :
    dst (.reg 3) = some 3 ∧
    (val (launch 32763 []) (.lit 32767) = some 32767 ∧ val (launch 32763 []) (.reg 3) = some 0 ∧
      (launch 32763 []).pc.toNat + 4 ≤ 32767) ∧
    (val (launch 32764 []) (.lit 1) = some 1 ∧ val (launch 32764 []) (.lit 0) = some 0 ∧
      (launch 32764 []).pc.toNat + 4 = 32768) := by decide

/-- The divisor 0, 1 and 32767 with `pc` at each end. -/
theorem witness_ModRule :
    dst (.reg 0) = some 0 ∧ val (launch 32764 []) (.reg 1) = some 0 ∧
    (val (launch 32763 []) (.lit 32767) = some 32767 ∧ val (launch 32763 []) (.lit 1) = some 1 ∧
      (1 : Word) ≠ 0 ∧ (launch 32763 []).pc.toNat + 4 ≤ 32767) ∧
    (val (launch 32764 []) (.lit 32767) = some 32767 ∧ (32767 : Word) ≠ 0 ∧
      (launch 32764 []).pc.toNat + 4 = 32768) := by decide

/-- JmpRule and CallRule: the last legal target and the first illegal one. -/
theorem witness_JmpRule :
    (val (launch 32766 []) (.lit 32767) = some 32767 ∧ (32767 : Word).toNat ≤ 32767) ∧
    (val ((launch 0 []).setReg 0 32768) (.reg 0) = some 32768 ∧ 32767 < (32768 : Word).toNat) := by
  decide

theorem witness_CallRule :
    (Legal (launch 32766 []) ∧ val (launch 32766 []) (.lit 32767) = some 32767 ∧
      (32767 : Word).toNat ≤ 32767) ∧
    (Legal ((launch 0 []).setReg 0 32768) ∧
      val ((launch 0 []).setReg 0 32768) (.reg 0) = some 32768 ∧ 32767 < (32768 : Word).toNat) := by
  decide

/-- JtRule and JfRule: both conditions, both kinds of target, `pc` at each end. -/
theorem witness_JtRule :
    (val (launch 32765 []) (.lit 1) = some 1 ∧ (1 : Word) ≠ 0 ∧
      val (launch 32765 []) (.lit 32767) = some 32767 ∧ (32767 : Word).toNat ≤ 32767) ∧
    (val ((launch 0 []).setReg 1 32770) (.reg 1) = some 32770 ∧ 32767 < (32770 : Word).toNat) ∧
    (val (launch 32764 []) (.reg 0) = some 0 ∧ (launch 32764 []).pc.toNat + 3 ≤ 32767) ∧
    (val (launch 32765 []) (.lit 0) = some 0 ∧ (launch 32765 []).pc.toNat + 3 = 32768) := by decide

theorem witness_JfRule :
    (val (launch 32765 []) (.lit 0) = some 0 ∧
      val (launch 32765 []) (.lit 32767) = some 32767 ∧ (32767 : Word).toNat ≤ 32767) ∧
    (val ((launch 0 []).setReg 0 32775) (.reg 0) = some 32775 ∧
      val ((launch 0 []).setReg 0 32775) (.lit 0) = some 0 ∧ 32767 < (32775 : Word).toNat) ∧
    (val (launch 32764 []) (.lit 9) = some 9 ∧ (9 : Word) ≠ 0 ∧
      (launch 32764 []).pc.toNat + 3 ≤ 32767) ∧
    (val (launch 32765 []) (.lit 9) = some 9 ∧ (launch 32765 []).pc.toNat + 3 = 32768) := by decide

/-- The last legal address and the first illegal one, the largest value a register takes and the first it
does not, `pc` at each end. -/
theorem witness_RmemRule :
    dst (.reg 0) = some 0 ∧
    (val ((launch 0 []).setReg 1 32768) (.reg 1) = some 32768 ∧ 32767 < (32768 : Word).toNat) ∧
    (val (launch 0 []) (.lit 32767) = some 32767 ∧ (32767 : Word).toNat ≤ 32767) ∧
    (((launch 0 []).storeWord 32767 32776).mem.wordAt 32767 = 32776 ∧ 32775 < (32776 : Word).toNat) ∧
    (((launch 32764 []).storeWord 32767 32775).mem.wordAt 32767 = 32775 ∧
      (32775 : Word).toNat ≤ 32775 ∧ (launch 32764 []).pc.toNat + 3 ≤ 32767) ∧
    ((launch 32765 []).mem.wordAt 32767 = 0 ∧ (launch 32765 []).pc.toNat + 3 = 32768) := by decide

theorem witness_WmemRule :
    (Legal ((launch 0 []).setReg 0 32775) ∧
      val ((launch 0 []).setReg 0 32775) (.reg 0) = some 32775 ∧ 32767 < (32775 : Word).toNat) ∧
    (Legal (launch 32764 []) ∧ val (launch 32764 []) (.lit 32767) = some 32767 ∧
      (32767 : Word).toNat ≤ 32767 ∧ val (launch 32764 []) (.lit 1) = some 1 ∧
      (launch 32764 []).pc.toNat + 3 ≤ 32767) ∧
    (Legal (launch 32765 []) ∧ val (launch 32765 []) (.lit 0) = some 0 ∧
      (launch 32765 []).pc.toNat + 3 = 32768) := by decide

theorem witness_RetRule :
    (launch 32767 []).stack = [] ∧
    ({ launch 32767 [] with stack := [3, 32767] }.stack = [3] ++ [32767] ∧
      (32767 : Word).toNat ≤ 32767) ∧
    ({ launch 205 [] with stack := [3, 32768] }.stack = [3] ++ [32768] ∧
      32767 < (32768 : Word).toNat) := by decide

theorem witness_InRule :
    dst (.reg 7) = some 7 ∧
    ({ launch 32765 [] with input := [255] }.input = 255 :: [] ∧
      (launch 32765 []).pc.toNat + 2 ≤ 32767) ∧
    ((launch 32765 []).input = [] ∧ (launch 32766 []).pc.toNat + 2 = 32768) := by decide

theorem witness_NoopRule :
    (launch 32766 []).pc.toNat + 1 ≤ 32767 ∧ (launch 32767 []).pc.toNat + 1 = 32768 := by decide

end Sys2Proof.Tests
end

section
/-! SUPPORT. The class of an operand word, read backwards: what a classification says about the word
(spec/00_scope.md R7). Each fact follows from `classify` losing nothing of the word. -/
namespace Sys2Proof

theorem toNat_of_classify_lit {w : Word} {v : BitVec 15} (h : classify w = .lit v) :
    w.toNat = v.toNat := by
  rw [← word_classify w, h, toNat_word_lit]

theorem toNat_of_classify_reg {w : Word} {r : RegIdx} (h : classify w = .reg r) :
    w.toNat = 32768 + r.val := by
  rw [← word_classify w, h, toNat_word_reg]

theorem le_toNat_of_classify_invalid {w : Word} (h : classify w = .invalid w) :
    32776 ≤ w.toNat := by
  have hc : (Operand.invalid w).canonical = true := h ▸ canonical_classify w
  simp only [Operand.canonical, decide_eq_true_eq] at hc
  omega

/-- Literals are the words up to 32767, and a literal keeps its value. -/
theorem le_iff_exists_classify_lit (w : Word) :
    w.toNat ≤ 32767 ↔ ∃ v : BitVec 15, classify w = .lit v ∧ v.toNat = w.toNat := by
  constructor
  · intro h
    have hc := classify_lit h
    exact ⟨w.setWidth 15, hc, (toNat_of_classify_lit hc).symm⟩
  · rintro ⟨v, hc, -⟩
    have hw := toNat_of_classify_lit hc
    have : v.toNat < 32768 := v.isLt
    omega

/-- Register references are the words 32768..32775; the register is the word's low three bits because
32768 is a multiple of 8. -/
theorem range_iff_exists_classify_reg (w : Word) :
    32768 ≤ w.toNat ∧ w.toNat ≤ 32775 ↔
      ∃ r : RegIdx, classify w = .reg r ∧ r.val = w.toNat - 32768 ∧ r.val = w.toNat % 8 := by
  constructor
  · rintro ⟨hlo, hhi⟩
    have hr : w.toNat - 32768 < 8 := by omega
    have hmod : w.toNat - 32768 = w.toNat % 8 := by omega
    exact ⟨⟨w.toNat - 32768, hr⟩, classify_reg hlo hr, rfl, hmod⟩
  · rintro ⟨r, hc, -, -⟩
    have hw := toNat_of_classify_reg hc
    have : r.val < 8 := r.isLt
    omega

/-- Invalid words are those from 32776 on. -/
theorem le_iff_classify_invalid (w : Word) : 32776 ≤ w.toNat ↔ classify w = .invalid w :=
  ⟨classify_invalid, le_toNat_of_classify_invalid⟩

/-- Settles O5, one class at a time. -/
theorem operandWordClasses : Obligations.OperandWordClasses := fun w =>
  ⟨le_iff_exists_classify_lit w, range_iff_exists_classify_reg w, le_iff_classify_invalid w⟩

end Sys2Proof
end

section
/-! SUPPORT. What the whole opcode word selects (spec/30_encoding.md R72, R78): 0..21 are the opcode words of
the map of R73, and with enough operand words after it each is decoded to its own instruction. -/
namespace Sys2Proof

/-- One instruction per row of the opcode map, in the order of R73. -/
def opcodeRows : List Instr :=
  let o := Operand.lit 0
  [.halt, .set o o, .push o, .pop o, .eq o o o, .gt o o o, .jmp o, .jt o o, .jf o o, .add o o o,
    .mult o o o, .mod o o o, .and o o o, .or o o o, .not o o, .rmem o o, .wmem o o, .call o, .ret,
    .out o, .inp o, .noop]

theorem opcodeWords_opcodeRows :
    opcodeRows.map (fun i => i.opcodeWord.toNat) = List.range 22 := by decide

/-- Each of 0..21 is the opcode word of some instruction: the converse of `opcodeWord_le`. -/
theorem exists_opcodeWord_eq {w : Word} (h : w.toNat ≤ 21) : ∃ i : Instr, i.opcodeWord = w := by
  have hw : w.toNat ∈ opcodeRows.map (fun i => i.opcodeWord.toNat) := by
    rw [opcodeWords_opcodeRows, List.mem_range]
    omega
  obtain ⟨i, -, hi⟩ := List.mem_map.mp hw
  exact ⟨i, BitVec.eq_of_toNat_eq hi⟩

theorem format1_eq_ok {f : Operand → Instr} {ws : List Word} (h : 1 ≤ ws.length) :
    ∃ a rest, format1 f ws = .ok (f a) rest := by
  match ws, h with
  | a :: rest, _ => exact ⟨classify a, rest, rfl⟩

theorem format2_eq_ok {f : Operand → Operand → Instr} {ws : List Word} (h : 2 ≤ ws.length) :
    ∃ a b rest, format2 f ws = .ok (f a b) rest := by
  match ws, h with
  | a :: b :: rest, _ => exact ⟨classify a, classify b, rest, rfl⟩

theorem format3_eq_ok {f : Operand → Operand → Operand → Instr} {ws : List Word}
    (h : 3 ≤ ws.length) : ∃ a b c rest, format3 f ws = .ok (f a b c) rest := by
  match ws, h with
  | a :: b :: c :: rest, _ => exact ⟨classify a, classify b, classify c, rest, rfl⟩

/-- With enough operand words the decoder makes an instruction of the same opcode word: the counterpart of
`decodeFrom_short`. -/
theorem decodeFrom_long (i : Instr) {ws : List Word} (h : i.arity ≤ ws.length) :
    ∃ j rest, decodeFrom i.opcodeWord ws = .ok j rest ∧ j.opcodeWord = i.opcodeWord := by
  cases i with
  | halt | ret | noop => exact ⟨_, ws, rfl, rfl⟩
  | push | pop | jmp | call | out | inp =>
    obtain ⟨_, rest, hd⟩ := format1_eq_ok h
    exact ⟨_, rest, hd, rfl⟩
  | set | jt | jf | not | rmem | wmem =>
    obtain ⟨_, _, rest, hd⟩ := format2_eq_ok h
    exact ⟨_, rest, hd, rfl⟩
  | eq | gt | add | mult | mod | and | or =>
    obtain ⟨_, _, _, rest, hd⟩ := format3_eq_ok h
    exact ⟨_, rest, hd, rfl⟩

/-- From 22 on no row of the map has the word (R78): nothing is masked off before the comparison. -/
theorem decodeFrom_invalidOpcode {w : Word} (ws : List Word) (h : 22 ≤ w.toNat) :
    decodeFrom w ws = .invalidOpcode w := by
  unfold decodeFrom
  split
  case h_23 => rfl
  all_goals omega

/-- Settles O3: three words are enough for any instruction (`arity_le`). -/
theorem opcodeWordIsComparedWhole : Obligations.OpcodeWordIsComparedWhole := by
  constructor
  · intro w ws hw hlen
    obtain ⟨i, rfl⟩ := exists_opcodeWord_eq hw
    exact decodeFrom_long i ((arity_le i).trans hlen)
  · intro w ws hw
    exact decodeFrom_invalidOpcode ws hw

end Sys2Proof
end

section
/-! SUPPORT. What an operand word resolves to (spec/40_step_cycle.md R108, R109), class by class. -/
namespace Sys2Proof.Machine

/-- A literal word resolves to itself, because its class keeps the word (`word_classify`). -/
theorem val_classify_of_le (s : State) {w : Word} (h : w.toNat ≤ 32767) :
    val s (classify w) = some w := by
  have hc := classify_lit h
  calc val s (classify w) = some (Operand.lit (w.setWidth 15)).word := by rw [hc]; rfl
    _ = some w := by rw [← hc, word_classify]

theorem dst_classify_of_le {w : Word} (h : w.toNat ≤ 32767) : dst (classify w) = none := by
  rw [classify_lit h]
  rfl

/-- Settles O8, one class of operand words at a time. -/
theorem operandResolution : Obligations.OperandResolution := by
  refine fun s w => ⟨fun h => ⟨val_classify_of_le s h, dst_classify_of_le h⟩,
    fun hr hlo => ?_, fun h => ?_⟩
  · rw [classify_reg hlo hr]
    exact ⟨rfl, rfl⟩
  · rw [classify_invalid h]
    exact ⟨rfl, rfl⟩

end Sys2Proof.Machine
end

section
/-! SUPPORT. Characters behind the input queue (spec/40_step_cycle.md R119): each shared operation carries
them along unread, so every instruction and every step does, except where the queue was found empty. -/
namespace Sys2Proof.Machine

/-- The state with more characters behind its input queue. -/
def State.addInput (s : State) (later : List Byte) : State := { s with input := s.input ++ later }

@[simp] theorem addInput_halted (s : State) (later : List Byte) :
    (s.addInput later).halted = s.halted := rfl

@[simp] theorem addInput_input (s : State) (later : List Byte) :
    (s.addInput later).input = s.input ++ later := rfl

@[simp] theorem top_addInput (s : State) (later : List Byte) : (s.addInput later).top = s.top := rfl

@[simp] theorem val_addInput (s : State) (later : List Byte) (w : Operand) :
    val (s.addInput later) w = val s w := by
  cases w <;> rfl

/-- Fetching reads memory and `pc` only. -/
@[simp] theorem fetch_addInput (s : State) (later : List Byte) :
    fetch (s.addInput later) = fetch s := rfl

/-- The oldest character leaves from the front, so the added ones stay behind. -/
theorem dropInput_addInput {s : State} {ch : Byte} {rest : List Byte} (h : s.input = ch :: rest)
    (later : List Byte) : (s.addInput later).dropInput = s.dropInput.addInput later := by
  simp [State.dropInput, State.addInput, h]

/-- `o'` is what `o` becomes when `later` waits behind the queue: the same next state with `later` behind
its queue. Nothing is said when `o` waits for input. -/
def Carries (later : List Byte) (o o' : Host.Outcome State Fault Refusal) : Prop :=
  ∀ t, o = .next t → t.outcome ≠ some .inputWait → o' = .next (t.addInput later)

section
variable {later : List Byte} {s t : State}

theorem carries_next : Carries later (.next t) (.next (t.addInput later)) := by
  rintro _ ⟨⟩ -
  rfl

theorem carries_wait (o' : Host.Outcome State Fault Refusal) : Carries later (waitForInput s) o' := by
  rintro _ ⟨⟩ hw
  exact absurd rfl hw

theorem carries_raise {c : Cause} {w : Word} :
    Carries later (raise c w s) (raise c w (s.addInput later)) := carries_next

theorem carries_guardAddress {n : Nat} {k k' : Host.Outcome State Fault Refusal}
    (h : Carries later k k') :
    Carries later (guardAddress n s k) (guardAddress n (s.addInput later) k') := by
  unfold guardAddress
  split
  · exact carries_raise
  · exact h

theorem carries_guardValue {v : Word} {k k' : Host.Outcome State Fault Refusal}
    (h : Carries later k k') :
    Carries later (guardValue v s k) (guardValue v (s.addInput later) k') := by
  unfold guardValue
  split
  · exact carries_raise
  · exact h

theorem carries_commit {npc : Nat} :
    Carries later (commit s t npc) (commit (s.addInput later) (t.addInput later) npc) :=
  carries_guardAddress carries_next

theorem carries_commitReg {r : RegIdx} {v : Word} {npc : Nat} :
    Carries later (commitReg s t r v npc)
      (commitReg (s.addInput later) (t.addInput later) r v npc) :=
  carries_guardValue carries_commit

theorem carries_withSrc {w : Operand} {k k' : Word → Host.Outcome State Fault Refusal}
    (h : ∀ v, Carries later (k v) (k' v)) :
    Carries later (withSrc w s k) (withSrc w (s.addInput later) k') := by
  unfold withSrc
  rw [val_addInput]
  cases val s w with
  | none => exact carries_raise
  | some v => exact h v

theorem carries_withDst {w : Operand} {k k' : RegIdx → Host.Outcome State Fault Refusal}
    (h : ∀ r, Carries later (k r) (k' r)) :
    Carries later (withDst w s k) (withDst w (s.addInput later) k') := by
  unfold withDst
  cases dst w with
  | none => exact carries_raise
  | some r => exact h r

end

/-- `in` is the one instruction that looks at the queue, and it looks at the front only. -/
theorem execIn_carries (a : Operand) (s : State) (later : List Byte) :
    Carries later (execIn a s) (execIn a (s.addInput later)) := by
  refine carries_withDst fun r => carries_guardAddress ?_
  rw [addInput_input]
  cases hi : s.input with
  | nil => exact carries_wait _
  | cons ch rest =>
    rw [dropInput_addInput hi]
    exact carries_commitReg

theorem exec_carries (i : Instr) (s : State) (later : List Byte) :
    Carries later (exec i s) (exec i (s.addInput later)) := by
  cases i with
  | halt => exact carries_next
  | noop => exact carries_commit
  | jmp a | out a => exact carries_withSrc fun _ => carries_commit
  | jt a b | jf a b => exact carries_withSrc fun _ => carries_withSrc fun _ => carries_commit
  | push a => exact carries_withSrc fun _ => carries_guardValue carries_commit
  | call a =>
    exact carries_withSrc fun _ => carries_guardAddress (carries_guardValue carries_commit)
  | wmem a b =>
    exact carries_withSrc fun _ => carries_withSrc fun _ =>
      carries_guardAddress (carries_guardValue carries_commit)
  | set a b | not a b =>
    exact carries_withDst fun _ => carries_withSrc fun _ => carries_commitReg
  | rmem a b =>
    exact carries_withDst fun _ => carries_withSrc fun _ => carries_guardAddress carries_commitReg
  | eq a b c | gt a b c | add a b c | mult a b c | and a b c | or a b c =>
    exact carries_withDst fun _ => carries_withSrc fun _ => carries_withSrc fun _ =>
      carries_commitReg
  | mod a b c =>
    refine carries_withDst fun _ => carries_withSrc fun _ => carries_withSrc fun y => ?_
    by_cases hy : y.toNat = 0
    · rw [if_pos hy, if_pos hy]
      exact carries_raise
    · rw [if_neg hy, if_neg hy]
      exact carries_commitReg
  | pop a =>
    refine carries_withDst fun _ => ?_
    rw [top_addInput]
    cases s.top with
    | none => exact carries_raise
    | some v => exact carries_commitReg
  | ret =>
    show Carries later (execRet s) (execRet (s.addInput later))
    unfold execRet
    rw [top_addInput]
    cases s.top with
    | none => exact carries_raise
    | some v => exact carries_commit
  | inp a => exact execIn_carries a s later

theorem step_carries (s : State) (later : List Byte) :
    Carries later (step s) (step (s.addInput later)) := by
  unfold step
  rw [addInput_halted, fetch_addInput]
  cases s.halted with
  | true => exact carries_next
  | false =>
    cases fetch s with
    | ok i rest => exact exec_carries i s later
    | noOpcodeWord | invalidOpcode w | operandsMissing k => exact carries_raise

/-- Settles O26: a step carries the added characters along, and the wait is excluded. -/
theorem laterInputIsInvisible : Obligations.LaterInputIsInvisible :=
  fun s t later => step_carries s later t

end Sys2Proof.Machine
end

section
/-! SUPPORT. `noop` (spec/41_halt_noop.md R131): it commits the state it began with at the sequential
successor. -/
namespace Sys2Proof.Machine

theorem exec_noop (s : State) : exec .noop s = commit s s (nextPc s 0) := rfl

/-- Settles O59: the commit at the sequential successor, inside memory and at its top (R113, R114). -/
theorem noopRule : Obligations.NoopRule := by
  refine ⟨rfl, fun s => ⟨fun h => ?_, fun h => ?_⟩⟩
  · exact (exec_noop s).trans (commit_next h)
  · exact (exec_noop s).trans (commit_next_top h)

end Sys2Proof.Machine
end

section
/-! SUPPORT. The rules common to all instructions (spec/40_step_cycle.md R104, R106), for every instruction at
once: its own words, the first illegal operand word, and the fetch of operand words past the last cell. -/
namespace Sys2Proof.Machine

/-- The first operand of a list that is not legal in its position: `firstBadOperand` for the part of an
instruction's operands that is still to be resolved. -/
def firstBadIn (ops : List (Role × Operand)) : Option Word :=
  (ops.find? fun p => !p.2.legalAs p.1).map fun p => p.2.word

theorem firstBadIn_operands (i : Instr) : firstBadIn i.operands = firstBadOperand i := rfl

theorem firstBadIn_cons_legal {ρ : Role} {w : Operand} (h : w.legalAs ρ = true)
    (ops : List (Role × Operand)) : firstBadIn ((ρ, w) :: ops) = firstBadIn ops := by
  simp [firstBadIn, h]

theorem firstBadIn_cons_illegal {ρ : Role} {w : Operand} (h : w.legalAs ρ = false)
    (ops : List (Role × Operand)) : firstBadIn ((ρ, w) :: ops) = some w.word := by
  simp [firstBadIn, h]

/-- If one of the operands is illegal, the outcome is the fault that reports the first of them. -/
def Blames (ops : List (Role × Operand)) (s : State) (o : Host.Outcome State Fault Refusal) : Prop :=
  ∀ w, firstBadIn ops = some w → o = .next (faulted .invalidOperand w s)

section
variable {ops : List (Role × Operand)} {s : State}

theorem blames_nil {o : Host.Outcome State Fault Refusal} : Blames [] s o := by
  rintro w ⟨⟩

theorem blames_withSrc {a : Operand} {k : Word → Host.Outcome State Fault Refusal}
    (h : ∀ v, Blames ops s (k v)) : Blames ((.source, a) :: ops) s (withSrc a s k) := by
  intro w hw
  cases hv : val s a with
  | none =>
    rw [firstBadIn_cons_illegal ((val_eq_none s a).mp hv)] at hw
    obtain rfl := Option.some.inj hw
    exact withSrc_none hv k
  | some v =>
    rw [firstBadIn_cons_legal (legalAs_of_val hv)] at hw
    exact (withSrc_some hv k).trans (h v w hw)

theorem blames_withDst {a : Operand} {k : RegIdx → Host.Outcome State Fault Refusal}
    (h : ∀ r, Blames ops s (k r)) : Blames ((.destination, a) :: ops) s (withDst a s k) := by
  intro w hw
  cases hr : dst a with
  | none =>
    rw [firstBadIn_cons_illegal ((dst_eq_none a).mp hr)] at hw
    obtain rfl := Option.some.inj hw
    exact withDst_none hr k
  | some r =>
    rw [reg_of_dst hr, firstBadIn_cons_legal (reg_legalAs r _)] at hw
    exact (withDst_some hr k).trans (h r w hw)

end

/-- Every instruction resolves its operands in memory order, each in the role its position has. -/
theorem exec_blames (i : Instr) (s : State) : Blames i.operands s (exec i s) := by
  cases i with
  | halt | ret | noop => exact blames_nil
  | push | jmp | call | out => exact blames_withSrc fun _ => blames_nil
  | pop | inp => exact blames_withDst fun _ => blames_nil
  | jt | jf | wmem => exact blames_withSrc fun _ => blames_withSrc fun _ => blames_nil
  | set | not | rmem => exact blames_withDst fun _ => blames_withSrc fun _ => blames_nil
  | eq | gt | add | mult | mod | and | or =>
    exact blames_withDst fun _ => blames_withSrc fun _ => blames_withSrc fun _ => blames_nil

/-- With too few cells left for its operand words, the fetch gives no instruction (R84): the cells after
`pc` are fewer than `arity`. -/
theorem fetch_short {s : State} {i : Instr} (hpc : s.pc.toNat ≤ 32767)
    (hw : s.mem.wordAt s.pc.toNat = i.opcodeWord) (htop : 32767 < s.pc.toNat + i.arity) :
    fetch s = .operandsMissing i.arity := by
  have hlen : (wordsFrom s.mem (s.pc.toNat + 1) 3).length ≤ i.arity - 1 :=
    length_wordsFrom_top s.mem 3 (by omega)
  rw [fetch_eq hpc, hw, decodeFrom_short i (by omega)]

theorem step_of_operandsMissing {s : State} {k : Nat} (hh : s.halted = false)
    (h : fetch s = .operandsMissing k) :
    step s = .next (faulted .addressOutOfRange (BitVec.ofNat 16 (s.pc.toNat + k)) s) := by
  simp only [step, hh, h]
  rfl

/-- The common part of every instruction's rule, with the words that its encoding has. -/
theorem commonRules (i : Instr) : CommonRules i (encode i) :=
  ⟨rfl, fun s w hw => exec_blames i s w ((firstBadIn_operands i).trans hw),
    fun _ ⟨hh, hpc⟩ hw htop => step_of_operandsMissing hh (fetch_short hpc hw htop)⟩

end Sys2Proof.Machine
end

section
/-! SUPPORT. The top of the stack, and `pop` (spec/42_set_push_pop.md R142). -/
namespace Sys2Proof.Machine

theorem top_of_nil {s : State} (h : s.stack = []) : s.top = none := by
  simp [State.top, h]

section
variable {s : State} {below : List Word} {v : Word} (h : s.stack = below ++ [v])
include h

theorem top_of_append : s.top = some v := by
  simp [State.top, h]

theorem dropTop_of_append : s.dropTop = { s with stack := below } := by
  simp [State.dropTop, h]

/-- In a legal state the top entry may be written to a register (R33 (e), R112). -/
theorem top_le (hs : Legal s) : v.toNat ≤ 32775 := by
  obtain ⟨-, hstack, -⟩ := hs
  exact (stack_legal_iff s.stack).mp hstack v (by simp [h])

end

section
variable {a : Operand} {r : RegIdx} {s : State} (hr : dst a = some r)
include hr

theorem exec_pop_of_nil (h : s.stack = []) :
    exec (.pop a) s = .next (faulted .stackUnderflow 0 s) := by
  show withDst a s _ = _
  rw [withDst_some hr, top_of_nil h, raise_eq]

/-- With a top entry `pop` is the commit of the removal and of one register write. -/
theorem exec_pop_of_append {below : List Word} {v : Word} (h : s.stack = below ++ [v]) :
    exec (.pop a) s = commitReg s { s with stack := below } r v (nextPc s 1) := by
  show withDst a s _ = _
  rw [withDst_some hr, top_of_append h, dropTop_of_append h]

end

/-- Settles O41: on a top entry, the commit inside memory and at its top (R112, R113, R114). -/
theorem popRule : Obligations.PopRule := by
  refine fun a => ⟨commonRules (.pop a), fun s r hs hr =>
    ⟨exec_pop_of_nil hr, fun below v h => ⟨fun hpc => ?_, fun hpc => ?_⟩⟩⟩
  · exact (exec_pop_of_append hr h).trans (commitReg_next (top_le h hs) hpc)
  · exact (exec_pop_of_append hr h).trans (commitReg_next_top (top_le h hs) hpc)

end Sys2Proof.Machine
end

section
/-! SUPPORT. An instruction of a destination and two sources once its operands are resolved (spec/40_step_cycle.md
R106), the word a comparison writes (spec/43_eq_gt.md R152), and `eq` (R150). -/
namespace Sys2Proof.Machine

theorem truthWord_decide (p : Prop) [Decidable p] :
    truthWord (decide p) = if p then 1 else 0 := by
  simp only [truthWord, decide_eq_true_eq]

/-- The word a comparison writes is in the write range (R112). -/
theorem truth_le (p : Prop) [Decidable p] : (if p then 1 else 0 : Word).toNat ≤ 32775 :=
  truthWord_decide p ▸ truthWord_le (decide p)

section
variable {a b c : Operand} {s : State} {r : RegIdx} {x y : Word}
  (hr : dst a = some r) (hx : val s b = some x) (hy : val s c = some y)
include hr hx hy

theorem withDst_withSrc_withSrc_some
    (k : RegIdx → Word → Word → Host.Outcome State Fault Refusal) :
    (withDst a s fun r => withSrc b s fun x => withSrc c s fun y => k r x y) = k r x y := by
  rw [withDst_some hr, withSrc_some hx, withSrc_some hy]

/-- On resolved operands `eq` is the commit of one register write; comparing the words is comparing their full
values (R152). -/
theorem exec_eq_resolved :
    exec (.eq a b c) s = commitReg s s r (if x = y then 1 else 0) (nextPc s 3) := by
  refine (withDst_withSrc_withSrc_some hr hx hy _).trans ?_
  rw [truthWord_decide]
  simp only [BitVec.toNat_inj]

end

/-- Settles O42: the commit inside memory and at its top (R112, R113, R114). -/
theorem eqRule : Obligations.EqRule := by
  refine fun a b c => ⟨commonRules (.eq a b c), fun s r x y hr hx hy =>
    ⟨fun hpc => ?_, fun hpc => ?_⟩⟩
  · exact (exec_eq_resolved hr hx hy).trans (commitReg_next (truth_le (x = y)) hpc)
  · exact (exec_eq_resolved hr hx hy).trans (commitReg_next_top (truth_le (x = y)) hpc)

end Sys2Proof.Machine
end

section
/-! SUPPORT. `jmp` and `jf` once their operands are resolved (spec/44_jmp_jt_jf.md R160, R162): each is one
commit of the state it began with, and the commit checks only the `pc` it is given. -/
namespace Sys2Proof.Machine

/-- `jmp` commits at its target, so its sequential successor is never checked. -/
theorem exec_jmp_resolved {a : Operand} {s : State} {target : Word} (ht : val s a = some target) :
    exec (.jmp a) s = commit s s target.toNat := by
  show withSrc a s _ = _
  rw [withSrc_some ht]

/-- Settles O44: the commit at a target inside memory and at one outside it (R163). -/
theorem jmpRule : Obligations.JmpRule := by
  refine fun a => ⟨commonRules (.jmp a), fun s target ht => ⟨fun h => ?_, fun h => ?_⟩⟩
  · exact (exec_jmp_resolved ht).trans (commit_target h)
  · exact (exec_jmp_resolved ht).trans (commit_target_out h)

section
variable {a b : Operand} {s : State} {x target : Word}
  (hx : val s a = some x) (ht : val s b = some target)
include hx ht

theorem exec_jf_resolved :
    exec (.jf a b) s = commit s s (if x.toNat = 0 then target.toNat else nextPc s 2) := by
  show withSrc a s _ = _
  rw [withSrc_some hx, withSrc_some ht]

theorem exec_jf_taken (h : x = 0) : exec (.jf a b) s = commit s s target.toNat := by
  have hx0 : x.toNat = 0 := congrArg BitVec.toNat h
  rw [exec_jf_resolved hx ht, if_pos hx0]

theorem exec_jf_not_taken (h : x ≠ 0) : exec (.jf a b) s = commit s s (nextPc s 2) := by
  have hx0 : x.toNat ≠ 0 := fun h0 => h (BitVec.eq_of_toNat_eq h0)
  rw [exec_jf_resolved hx ht, if_neg hx0]

end

/-- Settles O46: the taken jump commits at its target (R163), the other at the sequential successor, inside
memory and at its top (R113, R114). -/
theorem jfRule : Obligations.JfRule := by
  refine fun a b => ⟨commonRules (.jf a b), fun s x target hx ht =>
    ⟨fun h hle => ?_, fun h hgt => ?_, fun h hpc => ?_, fun h hpc => ?_⟩⟩
  · exact (exec_jf_taken hx ht h).trans (commit_target hle)
  · exact (exec_jf_taken hx ht h).trans (commit_target_out hgt)
  · exact (exec_jf_not_taken hx ht h).trans (commit_next hpc)
  · exact (exec_jf_not_taken hx ht h).trans (commit_next_top hpc)

end Sys2Proof.Machine
end

section
/-! SUPPORT. What the ALU's bitwise operations give, as masked words (spec/45_alu.md R174,
R175, R176). -/
namespace Sys2Proof.Machine

theorem aluAnd_eq_mask (x y : Word) : aluAnd x y = (x &&& y) &&& 0x7FFF := reduce_toNat (x &&& y)

theorem aluOr_eq_mask (x y : Word) : aluOr x y = (x ||| y) &&& 0x7FFF := reduce_toNat (x ||| y)

/-- The 15-bit complement is the exclusive or with fifteen ones. -/
theorem aluNot_eq_mask (x : Word) : aluNot x = (x ^^^ 0x7FFF) &&& 0x7FFF := by
  rw [← reduce_toNat]
  apply BitVec.eq_of_toNat_eq
  calc (aluNot x).toNat
      = (~~~(x.setWidth 15)).toNat := by
        rw [toNat_aluNot, BitVec.toNat_not, BitVec.toNat_setWidth]
    _ = (x.setWidth 15 ^^^ BitVec.allOnes 15).toNat := by rw [BitVec.xor_allOnes]
    _ = (x.toNat ^^^ 32767) % 2 ^ 15 := by
        rw [BitVec.toNat_xor, BitVec.toNat_setWidth, BitVec.toNat_allOnes, Nat.xor_mod_two_pow]
    _ = (reduce (x ^^^ 0x7FFF).toNat).toNat := by rw [toNat_reduce, BitVec.toNat_xor]; rfl

end Sys2Proof.Machine
end

section
/-! SUPPORT. The six ALU instructions once their operands are resolved (spec/45_alu.md R171 to R176): each
is the commit of one register write at the sequential successor, with a value below the modulus (R177),
or the fault of a divisor 0 (R180). -/
namespace Sys2Proof.Machine

/-- What the commit of one register write at the sequential successor answers, inside memory and at
its top (R112, R113, R114). -/
theorem commitReg_sequential {o : Host.Outcome State Fault Refusal} {s : State} {r : RegIdx}
    {v : Word} {k : Nat} (ho : o = commitReg s s r v (nextPc s k)) (hv : v.toNat ≤ 32775) :
    (s.pc.toNat + (k + 1) ≤ 32767 → o = .next { s with
      regs := s.regs.set r.val v r.isLt, pc := s.pc + BitVec.ofNat 16 (k + 1),
      icount := s.icount + 1, outcome := some .retired }) ∧
    (s.pc.toNat + (k + 1) = 32768 → o = .next (faulted .addressOutOfRange 32768 s)) :=
  ⟨fun h => ho.trans (commitReg_next hv h), fun h => ho.trans (commitReg_next_top hv h)⟩

/-- A word cut to its bits 14:0 is in the write range (R112). -/
theorem and_mask_le (w : Word) : (w &&& 0x7FFF).toNat ≤ 32775 :=
  reduce_toNat w ▸ reduce_le w.toNat

section
variable {a b c : Operand} {s : State} {r : RegIdx} {x y : Word}
  (hr : dst a = some r) (hx : val s b = some x)
include hr hx

theorem exec_not_resolved :
    exec (.not a b) s = commitReg s s r ((x ^^^ 0x7FFF) &&& 0x7FFF) (nextPc s 2) := by
  show withDst a s _ = _
  rw [withDst_some hr, withSrc_some hx, aluNot_eq_mask]

variable (hy : val s c = some y)
include hy

theorem exec_add_resolved :
    exec (.add a b c) s = commitReg s s r (reduce (x.toNat + y.toNat)) (nextPc s 3) :=
  withDst_withSrc_withSrc_some hr hx hy _

theorem exec_mult_resolved :
    exec (.mult a b c) s = commitReg s s r (reduce (x.toNat * y.toNat)) (nextPc s 3) :=
  withDst_withSrc_withSrc_some hr hx hy _

theorem exec_and_resolved :
    exec (.and a b c) s = commitReg s s r ((x &&& y) &&& 0x7FFF) (nextPc s 3) :=
  aluAnd_eq_mask x y ▸ withDst_withSrc_withSrc_some hr hx hy _

theorem exec_or_resolved :
    exec (.or a b c) s = commitReg s s r ((x ||| y) &&& 0x7FFF) (nextPc s 3) :=
  aluOr_eq_mask x y ▸ withDst_withSrc_withSrc_some hr hx hy _

/-- A divisor 0 faults before the next `pc` is looked at (R180). -/
theorem exec_mod_zero (h : y = 0) :
    exec (.mod a b c) s = .next (faulted .divideByZero 0 s) := by
  have hy0 : y.toNat = 0 := congrArg BitVec.toNat h
  exact (withDst_withSrc_withSrc_some hr hx hy _).trans (if_pos hy0)

theorem exec_mod_nonzero (h : y ≠ 0) :
    exec (.mod a b c) s = commitReg s s r (reduce (x.toNat % y.toNat)) (nextPc s 3) := by
  have hy0 : y.toNat ≠ 0 := fun h0 => h (BitVec.eq_of_toNat_eq h0)
  exact (withDst_withSrc_withSrc_some hr hx hy _).trans (if_neg hy0)

end

/-- Settles O47: the exact sum is reduced before the write (R177). -/
theorem addRule : Obligations.AddRule := fun a b c =>
  ⟨commonRules (.add a b c), fun _ _ x y hr hx hy =>
    commitReg_sequential (exec_add_resolved hr hx hy) (reduce_le (x.toNat + y.toNat))⟩

/-- Settles O48: the exact product is reduced before the write (R177). -/
theorem multRule : Obligations.MultRule := fun a b c =>
  ⟨commonRules (.mult a b c), fun _ _ x y hr hx hy =>
    commitReg_sequential (exec_mult_resolved hr hx hy) (reduce_le (x.toNat * y.toNat))⟩

/-- Settles O49: the divisor 0 and any other divisor, the latter inside memory and at its top. -/
theorem modRule : Obligations.ModRule := by
  refine fun a b c => ⟨commonRules (.mod a b c), fun s r x y hr hx hy => ?_⟩
  have hcommit (h : y ≠ 0) :=
    commitReg_sequential (exec_mod_nonzero hr hx hy h) (reduce_le (x.toNat % y.toNat))
  exact ⟨exec_mod_zero hr hx hy, fun h => (hcommit h).left, fun h => (hcommit h).right⟩

/-- Settles O50: the mask keeps the result in the write range (R178). -/
theorem andRule : Obligations.AndRule := fun a b c =>
  ⟨commonRules (.and a b c), fun _ _ x y hr hx hy =>
    commitReg_sequential (exec_and_resolved hr hx hy) (and_mask_le (x &&& y))⟩

/-- Settles O51: the mask keeps the result in the write range (R178). -/
theorem orRule : Obligations.OrRule := fun a b c =>
  ⟨commonRules (.or a b c), fun _ _ x y hr hx hy =>
    commitReg_sequential (exec_or_resolved hr hx hy) (and_mask_le (x ||| y))⟩

/-- Settles O52: the mask keeps the result in the write range (R178). -/
theorem notRule : Obligations.NotRule := fun a b =>
  ⟨commonRules (.not a b), fun _ _ x hr hx =>
    commitReg_sequential (exec_not_resolved hr hx) (and_mask_le (x ^^^ 0x7FFF))⟩

end Sys2Proof.Machine
end

section
/-! SUPPORT. `wmem` once its operands are resolved (spec/46_rmem_wmem.md R191): the fault of an address outside
memory (R192), or the commit of one store. -/
namespace Sys2Proof.Machine

section
variable {a b : Operand} {s : State} {x v : Word} (hx : val s a = some x) (hv : val s b = some v)
include hx hv

theorem exec_wmem_resolved :
    exec (.wmem a b) s =
      guardAddress x.toNat s (guardValue v s (commit s (s.storeWord x.toNat v) (nextPc s 2))) := by
  show withSrc a s _ = _
  rw [withSrc_some hx, withSrc_some hv]

theorem exec_wmem_address_out (h : 32767 < x.toNat) :
    exec (.wmem a b) s = .next (faulted .addressOutOfRange x s) := by
  rw [exec_wmem_resolved hx hv, guardAddress_gt h, BitVec.ofNat_toNat, BitVec.setWidth_eq]

/-- In a legal state the value is in the write range, so the store is committed as it is (R112, R191). -/
theorem exec_wmem_store (hs : Legal s) (h : x.toNat ≤ 32767) :
    exec (.wmem a b) s = commit s (s.storeWord x.toNat v) (nextPc s 2) := by
  obtain ⟨hregs, -⟩ := hs
  rw [exec_wmem_resolved hx hv, guardAddress_le h, guardValue_le (val_le hregs hv)]

end

section
variable {m : Memory} {n : Nat} (v : Word) (hm : m.wf) (hn : n ≤ 32767)
include hm hn

theorem wordAt_setWord_self : (m.setWord n v).wordAt n = v :=
  (wordAt_setWord hm hn n).trans (if_pos rfl)

theorem wordAt_setWord_ne {k : Nat} (hk : k ≠ n) : (m.setWord n v).wordAt k = m.wordAt k :=
  (wordAt_setWord hm hn k).trans (if_neg hk.symm)

/-- A store leaves every byte outside its cell alone (R54). -/
theorem byteAt_setWord_ne {k : Nat} (hlow : k ≠ 2 * n) (hhigh : k ≠ 2 * n + 1) :
    (m.setWord n v).byteAt k = m.byteAt k := by
  rw [byteAt_setWord hm hn, if_neg hhigh.symm, if_neg hlow.symm]

end

/-- Settles O54: the memory a completed `wmem` leaves is the one with the value stored in the addressed cell. -/
theorem wmemRule : Obligations.WmemRule := by
  refine fun a b => ⟨commonRules (.wmem a b), fun s x v hs hx hv =>
    ⟨exec_wmem_address_out hx hv, fun hle hpc => ?_, fun hle hpc => ?_⟩⟩
  · have hstore := exec_wmem_store hx hv hs hle
    obtain ⟨-, -, hwf, -⟩ := hs
    exact ⟨s.mem.setWord x.toNat v, hstore.trans (commit_next hpc),
      wf_setWord v hwf hle, wordAt_setWord_self v hwf hle,
      fun _ hn => wordAt_setWord_ne v hwf hle hn,
      fun _ hlow hhigh => byteAt_setWord_ne v hwf hle hlow hhigh⟩
  · exact (exec_wmem_store hx hv hs hle).trans (commit_next_top hpc)

end Sys2Proof.Machine
end

section
/-! SUPPORT. `call` and `ret` (spec/47_call_ret.md R200, R201): each commits at its target, `call` the push of
the return address and `ret` the removal of the top entry. -/
namespace Sys2Proof.Machine

/-- In a legal state the return address is in the write range (R112), also where it is no address (R200). -/
theorem returnAddress_le {s : State} (hs : Legal s) : (s.pc + 2).toNat ≤ 32775 := by
  obtain ⟨-, -, -, hpc, -⟩ := hs
  bv_omega

section
variable {a : Operand} {s : State} {target : Word} (ht : val s a = some target)
include ht

theorem exec_call_resolved :
    exec (.call a) s = guardAddress target.toNat s
      (guardValue (s.pc + 2) s (commit s (s.push (s.pc + 2)) target.toNat)) := by
  show withSrc a s _ = _
  rw [withSrc_some ht, ofNat_nextPc]
  rfl

/-- The target is checked before the push (R200). -/
theorem exec_call_target_out (h : 32767 < target.toNat) :
    exec (.call a) s = .next (faulted .addressOutOfRange target s) := by
  rw [exec_call_resolved ht, guardAddress_gt h, BitVec.ofNat_toNat, BitVec.setWidth_eq]

theorem exec_call_push (hs : Legal s) (h : target.toNat ≤ 32767) :
    exec (.call a) s = commit s (s.push (s.pc + 2)) target.toNat := by
  rw [exec_call_resolved ht, guardAddress_le h, guardValue_le (returnAddress_le hs)]

end

/-- Settles O55: a target outside memory, and the commit of the push at one inside (R163). -/
theorem callRule : Obligations.CallRule := fun a =>
  ⟨commonRules (.call a), fun _ _ hs ht =>
    ⟨exec_call_target_out ht, fun h => (exec_call_push ht hs h).trans (commit_target h)⟩⟩

theorem exec_ret_of_nil {s : State} (h : s.stack = []) :
    exec .ret s = .next (faulted .stackUnderflow 0 s) := by
  show execRet s = _
  rw [execRet, top_of_nil h, raise_eq]

/-- With a top entry `ret` is the commit of its removal, at the entry. -/
theorem exec_ret_of_append {s : State} {below : List Word} {target : Word}
    (h : s.stack = below ++ [target]) :
    exec .ret s = commit s { s with stack := below } target.toNat := by
  show execRet s = _
  rw [execRet, top_of_append h, dropTop_of_append h]

/-- Settles O56: the commit at a top entry inside memory and at one outside it (R163), whose fault keeps the
entry. -/
theorem retRule : Obligations.RetRule :=
  ⟨rfl, fun _ => ⟨exec_ret_of_nil, fun _ _ h =>
    ⟨fun hle => (exec_ret_of_append h).trans (commit_target hle),
      fun hgt => (exec_ret_of_append h).trans (commit_target_out hgt)⟩⟩⟩

end Sys2Proof.Machine
end

section
/-! SUPPORT. The fetch of an illegal opcode word (spec/40_step_cycle.md R103, spec/60_exceptions.md R222). -/
namespace Sys2Proof.Machine

/-- The opcode word alone decides it: the operand words behind it are any, or none at the top of memory. -/
theorem fetch_invalidOpcode {s : State} (hpc : s.pc.toNat ≤ 32767)
    (hop : 21 < (s.mem.wordAt s.pc.toNat).toNat) :
    fetch s = .invalidOpcode (s.mem.wordAt s.pc.toNat) :=
  (fetch_eq hpc).trans (decodeFrom_invalidOpcode _ hop)

theorem step_of_invalidOpcode {s : State} {w : Word} (hh : s.halted = false)
    (h : fetch s = .invalidOpcode w) : step s = .next (faulted .invalidOpcode w s) := by
  simp [step, hh, h, raiseOpcode, raise_eq]

/-- Settles O12: the illegal opcode word is what the fetch answers, and the step raises it raw. -/
theorem illegalOpcodeFaults : Obligations.IllegalOpcodeFaults :=
  fun _ ⟨hh, hpc⟩ hop => step_of_invalidOpcode hh (fetch_invalidOpcode hpc hop)

end Sys2Proof.Machine
end

section
/-! SUPPORT. The decoder and the encoder are inverse to each other (spec/30_encoding.md R70 to R74, R91): the
formats of R71 forwards and backwards, and from them every row of the opcode map. -/
namespace Sys2Proof

theorem length_encode (i : Instr) : (encode i).length = 1 + i.arity := by
  simp [encode, Instr.arity, Nat.add_comm]

/-- An operand list all of whose operands are classes of words. -/
def CanonicalOperands (ops : List (Role × Operand)) : Prop := ∀ p ∈ ops, p.2.canonical = true

theorem canonical_iff (i : Instr) : i.canonical = true ↔ CanonicalOperands i.operands :=
  List.all_eq_true

theorem canonicalOperands_cons {ρ : Role} {a : Operand} {ops : List (Role × Operand)}
    (h : CanonicalOperands ((ρ, a) :: ops)) : classify a.word = a ∧ CanonicalOperands ops :=
  ⟨classify_word (h (ρ, a) (by simp)), fun p hp => h p (by simp [hp])⟩

section
variable {α β γ : Role} {a b c : Operand} (rest : List Word)

theorem format1_words {f : Operand → Instr} (h : CanonicalOperands [(α, a)]) :
    format1 f (a.word :: rest) = .ok (f a) rest := by
  obtain ⟨ha, -⟩ := canonicalOperands_cons h
  rw [format1, ha]

theorem format2_words {f : Operand → Operand → Instr} (h : CanonicalOperands [(α, a), (β, b)]) :
    format2 f (a.word :: b.word :: rest) = .ok (f a b) rest := by
  obtain ⟨ha, h⟩ := canonicalOperands_cons h
  obtain ⟨hb, -⟩ := canonicalOperands_cons h
  rw [format2, ha, hb]

theorem format3_words {f : Operand → Operand → Operand → Instr}
    (h : CanonicalOperands [(α, a), (β, b), (γ, c)]) :
    format3 f (a.word :: b.word :: c.word :: rest) = .ok (f a b c) rest := by
  obtain ⟨ha, h⟩ := canonicalOperands_cons h
  obtain ⟨hb, h⟩ := canonicalOperands_cons h
  obtain ⟨hc, -⟩ := canonicalOperands_cons h
  rw [format3, ha, hb, hc]

end

/-- Decoding undoes encoding (R91). -/
theorem decodeWords_encode (i : Instr) (rest : List Word) (h : CanonicalOperands i.operands) :
    decodeWords (encode i ++ rest) = .ok i rest := by
  cases i with
  | halt | ret | noop => rfl
  | push | pop | jmp | call | out | inp => exact format1_words rest h
  | set | jt | jf | not | rmem | wmem => exact format2_words rest h
  | eq | gt | add | mult | mod | and | or => exact format3_words rest h

/-- Settles O6, row by row of the opcode map. -/
theorem decodeOfEncode : Obligations.DecodeOfEncode :=
  fun i rest h => decodeWords_encode i rest ((canonical_iff i).mp h)

section
variable {ws rest : List Word} {i : Instr}

theorem of_format1_eq_ok {f : Operand → Instr} (h : format1 f ws = .ok i rest) :
    ∃ a, ws = a :: rest ∧ i = f (classify a) := by
  match ws, h with
  | a :: _, rfl => exact ⟨a, rfl, rfl⟩

theorem of_format2_eq_ok {f : Operand → Operand → Instr} (h : format2 f ws = .ok i rest) :
    ∃ a b, ws = a :: b :: rest ∧ i = f (classify a) (classify b) := by
  match ws, h with
  | a :: b :: _, rfl => exact ⟨a, b, rfl, rfl⟩

theorem of_format3_eq_ok {f : Operand → Operand → Operand → Instr}
    (h : format3 f ws = .ok i rest) :
    ∃ a b c, ws = a :: b :: c :: rest ∧ i = f (classify a) (classify b) (classify c) := by
  match ws, h with
  | a :: b :: c :: _, rfl => exact ⟨a, b, c, rfl, rfl⟩

end

/-- The instruction decoded from the opcode word of `j` has the arity of `j` (R74), canonical operands, and the
words decoded as its encoding. -/
theorem of_decodeFrom_eq_ok (j : Instr) {i : Instr} {ws rest : List Word}
    (h : decodeFrom j.opcodeWord ws = .ok i rest) :
    i.arity = j.arity ∧ i.canonical = true ∧ j.opcodeWord :: ws = encode i ++ rest := by
  cases j with
  | halt | ret | noop =>
    obtain ⟨rfl, rfl⟩ := Decoded.ok.inj h
    exact ⟨rfl, rfl, rfl⟩
  | push | pop | jmp | call | out | inp =>
    obtain ⟨a, rfl, rfl⟩ := of_format1_eq_ok h
    simp [Instr.arity, Instr.canonical, encode, Instr.operands, Instr.opcodeWord]
  | set | jt | jf | not | rmem | wmem =>
    obtain ⟨a, b, rfl, rfl⟩ := of_format2_eq_ok h
    simp [Instr.arity, Instr.canonical, encode, Instr.operands, Instr.opcodeWord]
  | eq | gt | add | mult | mod | and | or =>
    obtain ⟨a, b, c, rfl, rfl⟩ := of_format3_eq_ok h
    simp [Instr.arity, Instr.canonical, encode, Instr.operands, Instr.opcodeWord]

/-- Only an opcode word of the map of R73 is decoded to an instruction. -/
theorem exists_opcodeWord_of_decodeFrom {w : Word} {i : Instr} {ws rest : List Word}
    (h : decodeFrom w ws = .ok i rest) : ∃ j : Instr, j.opcodeWord = w := by
  rcases Nat.lt_or_ge w.toNat 22 with hw | hw
  · exact exists_opcodeWord_eq (Nat.le_of_lt_succ hw)
  · rw [decodeFrom_invalidOpcode ws hw] at h
    nomatch h

/-- Whatever decodes to an instruction is its encoding (R91). -/
theorem of_decodeWords_eq_ok {i : Instr} {ws rest : List Word} (h : decodeWords ws = .ok i rest) :
    i.canonical = true ∧ ws = encode i ++ rest := by
  cases ws with
  | nil => nomatch h
  | cons w ws =>
    obtain ⟨j, rfl⟩ := exists_opcodeWord_of_decodeFrom h
    exact (of_decodeFrom_eq_ok j h).right

/-- Settles O7. -/
theorem encodeOfDecode : Obligations.EncodeOfDecode := fun _ _ _ => of_decodeWords_eq_ok

/-- Settles O4: the length is that of the encoding, and the first decoding names an instruction with the opcode
word of the second. -/
theorem lengthFromOpcodeWordAlone : Obligations.LengthFromOpcodeWordAlone := by
  refine ⟨fun w ws rest i h => ⟨arity_le i, ?_⟩, fun w ws ws' rest rest' i j hi hj => ?_⟩
  · obtain ⟨-, hws⟩ := of_decodeWords_eq_ok h
    rw [hws, List.length_append, length_encode]
  · obtain ⟨-, hws⟩ := of_decodeWords_eq_ok hi
    obtain rfl : w = i.opcodeWord := (List.cons.inj hws).left
    obtain ⟨harity, -⟩ := of_decodeFrom_eq_ok i hj
    exact harity.symm

/-- Settles O1, one written-out run at a time. -/
theorem writtenOutWordsDecode : Obligations.WrittenOutWordsDecode := by
  refine ⟨?_, ?_, ?_, ?_, ?_, ?_, ?_⟩ <;> decide

/-- Settles O2: every row is one arm of the decoder. -/
theorem opcodeMapRows : Obligations.OpcodeMapRows := by
  intro a b c rest
  and_intros <;> rfl

end Sys2Proof
end

section
/-! SUPPORT. What a next state of an instruction, and of a step, shares with the state before it: the laws of
Sys2Proof/Laws/Exec.lean read as facts about the next state. -/
namespace Sys2Proof.Machine

section
variable {i : Instr} {s t : State}

theorem change_of_exec (h : exec i s = .next t) : Change i s t := by
  obtain ⟨u, hu, hc⟩ := exec_leads i s
  obtain rfl : t = u := Host.Outcome.next.inj (h.symm.trans hu)
  exact hc

theorem exists_outcome_of_change (h : Change i s t) : ∃ o, t.outcome = some o := by
  cases h <;> exact ⟨_, rfl⟩

theorem eq_faulted_of_change {c : Cause} {w : Word} (h : Change i s t)
    (ho : t.outcome = some (.fault c w)) : t = faulted c w s := by
  cases h with
  | fault c' w' =>
    obtain ⟨rfl, rfl⟩ := StepOutcome.fault.inj (Option.some.inj ho)
    rfl
  | wait | halt | retire => nomatch ho

theorem wait_of_change (h : Change i s t) (ho : t.outcome = some .inputWait) :
    s.input = [] ∧ (∃ a, i = .inp a) ∧ t = s.report .inputWait := by
  cases h with
  | wait a hi hin => exact ⟨hin, ⟨a, hi⟩, rfl⟩
  | fault | halt | retire => nomatch ho

theorem effect_icount (h : Effect i s t) : t.icount = s.icount := by cases h <;> rfl

theorem effect_halted (h : Effect i s t) : t.halted = s.halted := by cases h <;> rfl

/-- Whether an outcome is that of an instruction that counts (R116). -/
def Counts (o : Option StepOutcome) : Prop := o = some .retired ∨ o = some .haltRetired

theorem change_icount (h : Change i s t) :
    (Counts t.outcome → t.icount = s.icount + 1) ∧ (¬ Counts t.outcome → t.icount = s.icount) := by
  cases h with
  | fault | wait => exact ⟨by simp [Counts], fun _ => rfl⟩
  | halt => exact ⟨fun _ => rfl, by simp [Counts]⟩
  | retire u npc _ _ he => exact ⟨by simp [effect_icount he], by simp [Counts]⟩

/-- Whether an outcome is one that leaves the core halted (R27). -/
def Halts (o : Option StepOutcome) : Prop := o = some .haltRetired ∨ ∃ c w, o = some (.fault c w)

theorem change_halted (h : Change i s t) :
    t.halted = true ↔ s.halted = true ∨ Halts t.outcome := by
  cases h with
  | fault | wait | halt => simp [Halts]
  | retire u npc _ _ he => simp [Halts, effect_halted he]

theorem retired_of_change (h : Change i s t) (ho : t.outcome = some .retired) :
    ∃ u npc, npc ≤ 32767 ∧ Effect i s u ∧ t = ((u.setPc npc).count).report .retired := by
  cases h with
  | retire u npc _ hn he => exact ⟨u, npc, hn, he, rfl⟩
  | fault | wait | halt => nomatch ho

/-- The effect of a `wmem` is the store of its value in the addressed cell (R191). -/
theorem store_of_effect_wmem {a b : Operand} (h : Effect (.wmem a b) s t) :
    ∃ x v, val s a = some x ∧ val s b = some v ∧ x.toNat ≤ 32767 ∧
      t = s.storeWord x.toNat v := by
  cases h with
  | store a' b' x v hi hx hv hle =>
    obtain ⟨rfl, rfl⟩ := Instr.wmem.inj hi
    exact ⟨x, v, hx, hv, hle, rfl⟩
  | reg r v hd => simp [Instr.operands] at hd
  | none hi | push _ hi => simp at hi
  | pop _ _ _ hi | ret _ hi | emit _ _ hi | take _ _ _ _ hi => nomatch hi

end

section
variable {s t : State}

/-- What the next state of a step can be: the one before with a report, in a halted core; else the one a fault
of the fetch leaves, or one that the instruction fetched can lead to. -/
theorem step_next_cases (h : step s = .next t) :
    (s.halted = true ∧ t = s.report .alreadyHalted) ∨
    (s.halted = false ∧ ∃ c w, t = faulted c w s) ∨
    (s.halted = false ∧ ∃ i rest, fetch s = .ok i rest ∧ Change i s t) := by
  obtain ⟨hh, hs⟩ | ⟨hh, c, w, hs⟩ | ⟨hh, i, rest, hf, hs, -⟩ := step_cases s
  · exact .inl ⟨hh, Host.Outcome.next.inj (h.symm.trans hs)⟩
  · exact .inr (.inl ⟨hh, c, w, Host.Outcome.next.inj (h.symm.trans hs)⟩)
  · exact .inr (.inr ⟨hh, i, rest, hf, change_of_exec (hs.symm.trans h)⟩)

/-- A fault of the fetch is one that any instruction could have, so `Change` describes every step of a running
core. -/
theorem step_change (h : step s = .next t) :
    (s.halted = true ∧ t = s.report .alreadyHalted) ∨ (s.halted = false ∧ ∃ i, Change i s t) := by
  obtain hh | ⟨hh, c, w, rfl⟩ | ⟨hh, i, -, -, hc⟩ := step_next_cases h
  · exact .inl hh
  · exact .inr ⟨hh, .noop, .fault c w⟩
  · exact .inr ⟨hh, i, hc⟩

end

end Sys2Proof.Machine
end

section
/-! SUPPORT. Legal states (spec/10_state.md R20, R22, R25): what each operation keeps of `Legal`, then every
instruction, every step, every boot and every operation of the host. -/
namespace Sys2Proof.Machine

/-- The part of `Legal` that does not speak of `pc`. -/
def LegalData (s : State) : Prop :=
  (∀ r : RegIdx, (s.reg r).toNat ≤ 32775) ∧ (∀ v ∈ s.stack, v.toNat ≤ 32775) ∧ s.mem.wf

theorem legal_iff (s : State) :
    Legal s ↔ LegalData s ∧ s.pc.toNat ≤ 32768 ∧ (s.halted = false → s.pc.toNat ≤ 32767) := by
  rw [Legal, stack_legal_iff]
  exact ⟨fun ⟨hregs, hstack, hmem, hpc⟩ => ⟨⟨hregs, hstack, hmem⟩, hpc⟩,
    fun ⟨⟨hregs, hstack, hmem⟩, hpc⟩ => ⟨hregs, hstack, hmem, hpc⟩⟩

section
variable {s t : State} (h : LegalData s)
include h

/-- `LegalData` looks at the registers, the stack and memory only. -/
theorem legalData_congr (hr : t.regs = s.regs) (hs : t.stack = s.stack) (hm : t.mem = s.mem) :
    LegalData t := by
  obtain ⟨hregs, hstack, hmem⟩ := h
  exact ⟨fun r => reg_congr hr r ▸ hregs r, hs ▸ hstack, hm ▸ hmem⟩

theorem legalData_setReg (r : RegIdx) {v : Word} (hv : v.toNat ≤ 32775) :
    LegalData (s.setReg r v) := by
  obtain ⟨hregs, hstack, hmem⟩ := h
  refine ⟨fun q => ?_, hstack, hmem⟩
  rw [reg_setReg]
  split
  · exact hv
  · exact hregs q

theorem legalData_push {v : Word} (hv : v.toNat ≤ 32775) : LegalData (s.push v) := by
  obtain ⟨hregs, hstack, hmem⟩ := h
  refine ⟨hregs, fun u hu => ?_, hmem⟩
  rcases List.mem_append.mp hu with hu | hu
  · exact hstack u hu
  · exact List.mem_singleton.mp hu ▸ hv

theorem legalData_dropTop : LegalData s.dropTop := by
  obtain ⟨hregs, hstack, hmem⟩ := h
  exact ⟨hregs, fun u hu => hstack u (List.mem_of_mem_dropLast hu), hmem⟩

theorem legalData_storeWord {n : Nat} (v : Word) (hn : n ≤ 32767) :
    LegalData (s.storeWord n v) := by
  obtain ⟨hregs, hstack, hmem⟩ := h
  exact ⟨hregs, hstack, wf_setWord v hmem hn⟩

theorem legalData_of_effect {i : Instr} (he : Effect i s t) : LegalData t := by
  cases he with
  | none => exact h
  | reg r v _ hv => exact legalData_setReg h r hv
  | push v _ hv => exact legalData_push h hv
  | pop a r v _ _ _ hv => exact legalData_setReg (legalData_dropTop h) r hv
  | ret => exact legalData_dropTop h
  | store a b x v _ _ _ hx => exact legalData_storeWord h v hx
  | emit => exact legalData_congr h rfl rfl rfl
  | take a r ch rest =>
    have hch : (ch.setWidth 16 : Word).toNat ≤ 32775 := by bv_omega
    exact legalData_setReg (s := s.dropInput) (legalData_congr h rfl rfl rfl) r hch

end

/-- An instruction executed in a running core keeps the state legal: only a `halt` leaves `pc` at 32768. -/
theorem legal_of_change {i : Instr} {s t : State} (hs : Legal s) (hh : s.halted = false)
    (h : Change i s t) : Legal t := by
  obtain ⟨hdata, -, hrun⟩ := (legal_iff s).mp hs
  have hpc := hrun hh
  refine (legal_iff t).mpr ?_
  cases h with
  | fault => exact ⟨legalData_congr hdata rfl rfl rfl, Nat.le_succ_of_le hpc, by simp⟩
  | wait => exact ⟨legalData_congr hdata rfl rfl rfl, Nat.le_succ_of_le hpc, fun _ => hpc⟩
  | halt =>
    refine ⟨legalData_congr hdata rfl rfl rfl, ?_, by simp⟩
    simp [nextPc]
    omega
  | retire u npc _ hn he =>
    have hnpc : (BitVec.ofNat 16 npc).toNat ≤ 32767 := (Nat.mod_le npc _).trans hn
    exact ⟨legalData_congr (legalData_of_effect hdata he) rfl rfl rfl,
      Nat.le_succ_of_le hnpc, fun _ => hnpc⟩

/-- Settles O20: a halted core keeps everything but the report, and a running one does what `Change` says. -/
theorem stepKeepsLegal : Obligations.StepKeepsLegal := by
  intro s t hs h
  obtain ⟨-, rfl⟩ | ⟨hh, i, hc⟩ := step_change h
  · exact hs
  · exact legal_of_change hs hh hc

@[simp] theorem reg_reset (r : RegIdx) : State.reset.reg r = 0 := by
  simp [State.reg, State.reset]

/-- Settles O22. -/
theorem resetValues : Obligations.ResetValues :=
  ⟨reg_reset, rfl, rfl, rfl, rfl, rfl, rfl, wordAt_nil⟩

theorem bootImage_eq_none {bytes : List Byte} (h : bytes.length % 2 = 1 ∨ 65536 < bytes.length) :
    bootImage bytes = none :=
  if_neg (by simp only [Config.imageBytes]; omega)

theorem bootImage_eq_some {bytes : List Byte} (he : bytes.length % 2 = 0)
    (hl : bytes.length ≤ 65536) :
    bootImage bytes = some { State.reset with mem := Memory.ofImage 0 bytes } :=
  if_pos ⟨he, hl⟩

/-- What an accepted image leaves: the state after reset, with the image's memory. -/
theorem of_bootImage_eq_some {bytes : List Byte} {s : State} (h : bootImage bytes = some s) :
    bytes.length ≤ 65536 ∧ s = { State.reset with mem := Memory.ofImage 0 bytes } := by
  obtain ⟨⟨-, hl⟩, hs⟩ := Option.ite_none_right_eq_some.mp h
  exact ⟨hl, (Option.some.inj hs).symm⟩

/-- The state after reset is legal with any canonical memory. -/
theorem legal_reset_mem {m : Memory} (h : m.wf) : Legal { State.reset with mem := m } := by
  refine (legal_iff _).mpr ⟨⟨fun r => ?_, by simp [State.reset], h⟩, by simp [State.reset]⟩
  show (State.reset.reg r).toNat ≤ 32775
  simp

theorem legal_of_bootImage {bytes : List Byte} {s : State} (h : bootImage bytes = some s) :
    Legal s := by
  obtain ⟨hl, rfl⟩ := of_bootImage_eq_some h
  exact legal_reset_mem (wf_ofImage (by omega))

/-- Settles O21. -/
theorem bootedStatesAreLegal : Obligations.BootedStatesAreLegal :=
  ⟨legal_reset_mem ⟨List.Pairwise.nil, by simp⟩, fun _ _ => legal_of_bootImage⟩

theorem registerSet_eq_some {s : State} {index : Nat} {value : Word} (h : index < 8)
    (hv : value.toNat ≤ 32775) :
    registerSet s index value = some (s.setReg ⟨index, h⟩ value) := by
  simp [registerSet, h, hv]

theorem registerSet_eq_none {s : State} {index : Nat} {value : Word}
    (h : 8 ≤ index ∨ 32775 < value.toNat) : registerSet s index value = none := by
  unfold registerSet
  split
  · exact if_neg (by simp only [Config.valueMax]; omega)
  · rfl

theorem memoryWrite_eq_some {s : State} {address : Nat} {value : Word} (ha : address ≤ 32767)
    (hv : value.toNat ≤ 32775) :
    memoryWrite s address value = some (s.storeWord address value) :=
  if_pos ⟨ha, hv⟩

theorem memoryWrite_eq_none {s : State} {address : Nat} {value : Word}
    (h : 32767 < address ∨ 32775 < value.toNat) : memoryWrite s address value = none :=
  if_neg (by simp only [Config.maxAddress, Config.valueMax]; omega)

section
variable {s t : State} (hs : Legal s)
include hs

/-- The host's register write obeys the write invariant of R22 (R265). -/
theorem legal_of_registerSet {index : Nat} {value : Word}
    (h : registerSet s index value = some t) : Legal t := by
  by_cases hin : index < 8 ∧ value.toNat ≤ 32775
  · obtain rfl := Option.some.inj ((registerSet_eq_some hin.left hin.right).symm.trans h)
    obtain ⟨hdata, hpc⟩ := (legal_iff s).mp hs
    exact (legal_iff _).mpr ⟨legalData_setReg hdata _ hin.right, hpc⟩
  · rw [registerSet_eq_none (by omega)] at h
    nomatch h

/-- The host's memory write keeps memory canonical (R266). -/
theorem legal_of_memoryWrite {address : Nat} {value : Word}
    (h : memoryWrite s address value = some t) : Legal t := by
  by_cases hin : address ≤ 32767 ∧ value.toNat ≤ 32775
  · obtain rfl := Option.some.inj ((memoryWrite_eq_some hin.left hin.right).symm.trans h)
    obtain ⟨hdata, hpc⟩ := (legal_iff s).mp hs
    exact (legal_iff _).mpr ⟨legalData_storeWord hdata value hin.left, hpc⟩
  · rw [memoryWrite_eq_none (by omega)] at h
    nomatch h

end

/-- Settles O23, by induction on how the state was reached. -/
theorem reachableStatesAreLegal : Obligations.ReachableStatesAreLegal := by
  intro s h
  induction h with
  | boot h => exact legal_of_bootImage h
  | step _ h ih => exact stepKeepsLegal _ _ ih h
  | registerSet _ h ih => exact legal_of_registerSet ih h
  | memoryWrite _ h ih => exact legal_of_memoryWrite ih h
  | feedInput _ _ ih => exact ih

end Sys2Proof.Machine
end

section
/-! SUPPORT. The rules of the step (spec/40_step_cycle.md R100, R101, R116, R117; spec/60_exceptions.md R221),
read off what a step can do. -/
namespace Sys2Proof.Machine

/-- Settles O15: the step reports in a halted core and on a fault of the fetch, and else as the instruction
does. -/
theorem everyStepHasANextState : Obligations.EveryStepHasANextState := by
  refine ⟨fun s => ?_, fun i s => ?_⟩
  · obtain ⟨-, hs⟩ | ⟨-, c, w, hs⟩ | ⟨-, i, -, -, -, t, hs, hc⟩ := step_cases s
    · exact ⟨_, _, hs, rfl⟩
    · exact ⟨_, _, hs, rfl⟩
    · obtain ⟨o, ho⟩ := exists_outcome_of_change hc
      exact ⟨t, o, hs, ho⟩
  · obtain ⟨t, hs, hc⟩ := exec_leads i s
    obtain ⟨o, ho⟩ := exists_outcome_of_change hc
    exact ⟨t, o, hs, ho⟩

/-- Settles O16. -/
theorem faultsArePrecise : Obligations.FaultsArePrecise := by
  intro s t c w h ho
  obtain ⟨-, rfl⟩ | ⟨hh, i, hc⟩ := step_change h
  · nomatch ho
  · exact ⟨hh, eq_faulted_of_change hc ho⟩

/-- Settles O17. -/
theorem inputWaitChangesNothing : Obligations.InputWaitChangesNothing := by
  intro s t h ho
  obtain ⟨-, rfl⟩ | ⟨-, c, w, rfl⟩ | ⟨hh, i, rest, hf, hc⟩ := step_next_cases h
  · nomatch ho
  · nomatch ho
  · obtain ⟨hin, ⟨a, rfl⟩, ht⟩ := wait_of_change hc ho
    exact ⟨hh, hin, ⟨a, rest, hf⟩, ht⟩

/-- Settles O18. -/
theorem instructionCounterRule : Obligations.InstructionCounterRule := by
  intro s t h
  obtain ⟨-, rfl⟩ | ⟨-, i, hc⟩ := step_change h
  · exact ⟨by simp, fun _ _ => rfl⟩
  · obtain ⟨hcounts, hnot⟩ := change_icount hc
    exact ⟨hcounts, fun hr hhalt => hnot (not_or.mpr ⟨hr, hhalt⟩)⟩

/-- Settles O19. -/
theorem haltedFlagRule : Obligations.HaltedFlagRule := by
  intro s t h
  obtain ⟨hh, rfl⟩ | ⟨hh, i, hc⟩ := step_change h
  · exact ⟨by simp [hh], fun _ => hh⟩
  · exact ⟨change_halted hc, by simp [hh]⟩

/-- A halted core only reports (R101). -/
theorem step_of_halted {s : State} (h : s.halted = true) :
    step s = .next (s.report .alreadyHalted) :=
  if_pos h

/-- Settles O11. -/
theorem haltedStepDoesNothing : Obligations.HaltedStepDoesNothing := fun _ => step_of_halted

theorem core_run_succ {M : Host.Core} {s t : M.State} (h : M.step s = .next t) (n : Nat) :
    M.run (n + 1) s = M.run n t := by
  rw [Host.Core.run, h]

/-- Settles O24, by induction on the number of steps: the report of a halted core is overwritten by the same
report. -/
theorem haltedStatesAreFinal : Obligations.HaltedStatesAreFinal := by
  intro s n hs
  induction n generalizing s with
  | zero => exact core_run_succ (M := core) (step_of_halted hs) 0
  | succ n ih =>
    exact (core_run_succ (M := core) (step_of_halted hs) (n + 1)).trans
      (ih (s.report .alreadyHalted) hs)

/-- Every way an instruction can end writes the report anew. -/
theorem exec_outcome (i : Instr) (s : State) (o : Option StepOutcome) :
    exec i { s with outcome := o } = exec i s := by
  cases i <;> rfl

/-- Settles O25: neither the halted flag nor the fetch looks at the report, and no next state keeps it. -/
theorem stepIgnoresReport : Obligations.StepIgnoresReport := by
  intro s o
  simp only [step, exec_outcome]
  rfl

end Sys2Proof.Machine
end

section
/-! SUPPORT. The instruction that stands in memory is the one the step executes (spec/40_step_cycle.md R120),
whether the cells hold its encoding or `withFetchWord` placed it. -/
namespace Sys2Proof.Machine

/-- Code of at most four words at `pc` is what the decoder is given first. -/
theorem fetch_of_codeAt {s : State} {ws : List Word} (h : CodeAt s.mem s.pc.toNat ws)
    (hl : ws.length ≤ 4) : ∃ rest, fetch s = decodeWords (ws ++ rest) := by
  obtain ⟨rest, hr⟩ := wordsFrom_of_codeAt h hl
  exact ⟨rest, congrArg decodeWords hr⟩

theorem step_of_codeAt {s : State} {i : Instr} (hh : s.halted = false) (hi : i.canonical = true)
    (h : CodeAt s.mem s.pc.toNat (encode i)) : step s = exec i s := by
  have hl : (encode i).length ≤ 4 := by
    have := arity_le i
    rw [length_encode]
    omega
  obtain ⟨rest, hf⟩ := fetch_of_codeAt h hl
  exact step_of_fetch hh (hf.trans (decodeOfEncode i rest hi))

/-- Settles O9: by the decoder's answer, and by the encoding in memory (R91). -/
theorem stepRunsDecodedInstruction : Obligations.StepRunsDecodedInstruction :=
  ⟨fun _ _ _ => step_of_fetch, fun _ _ => step_of_codeAt⟩

/-- Words placed inside memory stand there: a later word is stored in a later cell. -/
theorem codeAt_placeWords {m : Memory} {n : Nat} {ws : List Word} (h : m.wf)
    (hn : n + ws.length ≤ 32768) : CodeAt (m.placeWords n ws) n ws := by
  induction ws generalizing m n with
  | nil => trivial
  | cons w ws ih =>
    rw [List.length_cons] at hn
    have hcell : n ≤ 32767 := by omega
    have hwf : (m.setWord n w).wf := wf_setWord w h hcell
    rw [Memory.placeWords, if_pos hcell]
    exact ⟨hcell, (wordAt_placeWords_lt hwf (Nat.lt_succ_self n)).trans
      (wordAt_setWord_self w h hcell), ih hwf (by omega)⟩

theorem length_tableWords (nbits w : Nat) : (tableWords nbits w).length = 4 := by
  simp [tableWords]

theorem of_decodeTableWord_eq_some {nbits w : Nat} {i : Instr}
    (h : decodeTableWord nbits w = some i) : ∃ rest, decodeWords (tableWords nbits w) = .ok i rest := by
  unfold decodeTableWord decode at h
  rw [wordsOfBytes_bytesOfWords] at h
  split at h
  case h_1 j rest hd => exact ⟨rest, hd.trans (by rw [Option.some.inj h])⟩
  all_goals nomatch h

/-- The four words placed at `pc` are all the fetch sees. -/
theorem fetch_withFetchWord {s : State} (nbits w : Nat) (hm : s.mem.wf) (hpc : s.pc.toNat ≤ 32764) :
    fetch (s.withFetchWord nbits w) = decodeWords (tableWords nbits w) := by
  have hl := length_tableWords nbits w
  have hcode := codeAt_placeWords (n := s.pc.toNat) (ws := tableWords nbits w) hm (by omega)
  obtain ⟨rest, hr⟩ := wordsFrom_of_codeAt hcode hl.le
  have hrest : rest.length = 0 := by
    have := length_wordsFrom_le (s.mem.placeWords s.pc.toNat (tableWords nbits w)) s.pc.toNat 4
    rw [hr, List.length_append] at this
    omega
  rw [List.length_eq_zero_iff.mp hrest, List.append_nil] at hr
  exact congrArg decodeWords hr

/-- Settles O10. -/
theorem placedWordIsExecuted : Obligations.PlacedWordIsExecuted := by
  intro s nbits w i hm hpc h
  obtain ⟨rest, hd⟩ := of_decodeTableWord_eq_some h
  exact step_of_fetch rfl ((fetch_withFetchWord nbits w hm hpc).trans hd)

/-- Settles O13: it is the operand-fetch part of the common rules, for every instruction. -/
theorem operandFetchPastTopFaults : Obligations.OperandFetchPastTopFaults := by
  intro s i hrun hw htop
  obtain ⟨-, -, hfetch⟩ := commonRules i
  exact hfetch s hrun hw htop

/-- An instruction of one word needs no cell but the one at `pc`. -/
theorem step_of_oneWord {s : State} {i : Instr} (hrun : Running s) (hi : i.operands = [])
    (hw : s.mem.wordAt s.pc.toNat = i.opcodeWord) : step s = exec i s := by
  obtain ⟨hh, hpc⟩ := hrun
  refine step_of_codeAt hh ((canonical_iff i).mpr ?_) ?_
  · rw [hi]
    nofun
  · rw [encode, hi]
    exact ⟨hpc, hw, trivial⟩

/-- A `wmem` that retires has stored its value in the addressed cell and leaves a running core running. -/
theorem wordAt_of_wmem_retired {a b : Operand} {s t : State} {x v : Word} (hs : Legal s)
    (hh : s.halted = false) (h : exec (.wmem a b) s = .next t) (ho : t.outcome = some .retired)
    (hx : val s a = some x) (hv : val s b = some v) :
    Running t ∧ t.mem.wordAt x.toNat = v := by
  obtain ⟨-, -, hwf, -⟩ := hs
  obtain ⟨u, npc, hn, he, rfl⟩ := retired_of_change (change_of_exec h) ho
  obtain ⟨x', v', hx', hv', hle, rfl⟩ := store_of_effect_wmem he
  obtain rfl : x = x' := Option.some.inj (hx.symm.trans hx')
  obtain rfl : v = v' := Option.some.inj (hv.symm.trans hv')
  have hpc : (BitVec.ofNat 16 npc).toNat ≤ 32767 := (Nat.mod_le npc _).trans hn
  exact ⟨⟨hh, hpc⟩, wordAt_setWord_self v hwf hle⟩

/-- Settles O32: the cell at the next `pc` holds the stored word, and the fetch reads it. -/
theorem storeIsSeenByTheNextFetch : Obligations.StoreIsSeenByTheNextFetch := by
  intro a b s t x v hs hh h ho hx hv hpc
  obtain ⟨hrun, hw⟩ := wordAt_of_wmem_retired hs hh h ho hx hv
  rw [hpc] at hw
  refine ⟨fun hgt => ?_, fun h0 => ?_, fun h18 => ?_, fun h21 => ?_⟩
  · exact hw ▸ illegalOpcodeFaults t hrun (hw ▸ hgt)
  · exact step_of_oneWord hrun rfl (hw.trans h0)
  · exact step_of_oneWord hrun rfl (hw.trans h18)
  · exact step_of_oneWord hrun rfl (hw.trans h21)

end Sys2Proof.Machine
end

section
/-! SUPPORT. What an instruction leaves unchanged (spec/10_state.md R23, R31 to R35): every part of the state,
read off `Effect` and `Change`. -/
namespace Sys2Proof.Machine

/-- Two states that agree on everything but `pc`, `halted`, `icount` and the report. -/
structure SameData (s t : State) : Prop where
  regs : t.regs = s.regs
  mem : t.mem = s.mem
  stack : t.stack = s.stack
  input : t.input = s.input
  output : t.output = s.output

/-- Only the effect of a retiring instruction reaches the registers, memory, the stack and the channels. -/
theorem change_data {i : Instr} {s t : State} (h : Change i s t) :
    SameData s t ∨ (t.outcome = some .retired ∧ ∃ u, Effect i s u ∧ SameData u t) := by
  cases h with
  | fault | wait | halt => exact .inl ⟨rfl, rfl, rfl, rfl, rfl⟩
  | retire u _ _ _ he => exact .inr ⟨rfl, u, he, ⟨rfl, rfl, rfl, rfl, rfl⟩⟩

section
variable {i : Instr} {s t : State}

theorem destination_of_effect {q : RegIdx} (h : Effect i s t) (hq : t.reg q ≠ s.reg q) :
    (Role.destination, Operand.reg q) ∈ i.operands := by
  cases h with
  | none | push | ret | store | emit => exact absurd rfl hq
  | reg r v hd | pop _ r v _ hd | take _ r _ _ _ hd =>
    by_cases hr : r = q
    · exact hr ▸ hd
    · exact absurd (reg_setReg_ne _ _ hr) hq

theorem effect_mem (h : Effect i s t) (hi : ∀ a b, i ≠ .wmem a b) : t.mem = s.mem := by
  cases h with
  | none | reg | push | pop | ret | emit | take => rfl
  | store a b _ _ hw => exact absurd hw (hi a b)

theorem stack_eq_nil_of_top (h : s.top = none) : s.stack = [] :=
  List.getLast?_eq_none_iff.mp h

theorem stack_of_top {v : Word} (h : s.top = some v) : s.stack = s.dropTop.stack ++ [v] :=
  (List.dropLast_append_getLast? v h).symm

theorem effect_stack (h : Effect i s t) :
    t.stack = s.stack ∨
    ((∃ a, i = .push a ∨ i = .call a) ∧ ∃ v, t.stack = s.stack ++ [v]) ∨
    ((∃ a, i = .pop a) ∨ i = .ret) ∧ ∃ v, s.stack = t.stack ++ [v] := by
  cases h with
  | none | reg | store | emit | take => exact .inl rfl
  | push v hi => exact .inr (.inl ⟨hi, v, rfl⟩)
  | pop a r v hi _ ht => exact .inr (.inr ⟨.inl ⟨a, hi⟩, v, stack_of_top ht⟩)
  | ret v hi ht => exact .inr (.inr ⟨.inr hi, v, stack_of_top ht⟩)

theorem effect_output (h : Effect i s t) :
    t.output = s.output ∨ (∃ a, i = .out a) ∧ ∃ ch, t.output = s.output ++ [ch] := by
  cases h with
  | none | reg | push | pop | ret | store | take => exact .inl rfl
  | emit a ch hi => exact .inr ⟨⟨a, hi⟩, ch, rfl⟩

theorem effect_input (h : Effect i s t) :
    t.input = s.input ∨ (∃ a, i = .inp a) ∧ ∃ ch, s.input = ch :: t.input := by
  cases h with
  | none | reg | push | pop | ret | store | emit => exact .inl rfl
  | take a r ch rest hi _ hin => exact .inr ⟨⟨a, hi⟩, ch, by simp [hin]⟩

end

/-- Settles O27. -/
theorem onlyTheDestinationRegisterChanges : Obligations.OnlyTheDestinationRegisterChanges := by
  intro i s t q h hq
  obtain hd | ⟨-, u, he, hd⟩ := change_data (change_of_exec h)
  · exact absurd (reg_congr hd.regs q) hq
  · exact destination_of_effect he (reg_congr hd.regs q ▸ hq)

/-- Settles O28: a store at the resolved address (R192), or none. -/
theorem onlyWmemChangesMemory : Obligations.OnlyWmemChangesMemory := by
  refine ⟨fun i s t h hi => ?_, fun a b s t x hwf hx h n hlow hhigh => ?_⟩
  · obtain hd | ⟨-, u, he, hd⟩ := change_data (change_of_exec h)
    · exact hd.mem
    · exact hd.mem.trans (effect_mem he hi)
  · obtain hd | ⟨-, u, he, hd⟩ := change_data (change_of_exec h)
    · rw [hd.mem]
    · obtain ⟨x', v, hx', -, hle, rfl⟩ := store_of_effect_wmem he
      obtain rfl := Option.some.inj (hx.symm.trans hx')
      rw [hd.mem, storeWord_mem, byteAt_setWord_ne v hwf hle hlow hhigh]

/-- Settles O29. -/
theorem onlyStackInstructionsChangeTheStack : Obligations.OnlyStackInstructionsChangeTheStack := by
  intro i s t h
  obtain hd | ⟨ho, u, he, hd⟩ := change_data (change_of_exec h)
  · exact .inl hd.stack
  · rw [hd.stack]
    obtain hsame | hpush | ⟨hi, hpop⟩ := effect_stack he
    · exact .inl hsame
    · exact .inr (.inl ⟨hpush, ho⟩)
    · exact .inr (.inr ⟨hi, hpop, ho⟩)

/-- Settles O30. -/
theorem onlyOutAndInTouchTheChannels : Obligations.OnlyOutAndInTouchTheChannels := by
  intro i s t h
  obtain hd | ⟨-, u, he, hd⟩ := change_data (change_of_exec h)
  · exact ⟨.inl hd.output, .inl hd.input⟩
  · rw [hd.input, hd.output]
    exact ⟨effect_output he, effect_input he⟩

end Sys2Proof.Machine
end

section
/-! SUPPORT. Why an instruction faults (spec/60_exceptions.md R220, R222 to R227): each shared operation raises
a fault for one reason, so every instruction does. -/
namespace Sys2Proof.Machine

/-- The reasons for which executing `i` in `s` may raise a cause with an information word; `ops` are the
operands still to be resolved. Outside the legal states a guard may also fire on a value that no legal state
has. -/
inductive Reason (ops : List (Role × Operand)) (i : Instr) (s : State) : Cause → Word → Prop
  | operand {w : Word} : firstBadIn ops = some w → Reason ops i s .invalidOperand w
  | underflow : ((∃ a, i = .pop a) ∨ i = .ret) → s.stack = [] → Reason ops i s .stackUnderflow 0
  | cell {a b : Operand} {x : Word} : i = .rmem a b → val s b = some x →
      32775 < (s.mem.wordAt x.toNat).toNat →
      Reason ops i s .valueOutOfRange (s.mem.wordAt x.toNat)
  | value {v : Word} : ¬ Legal s → Reason ops i s .valueOutOfRange v
  | address {w : Word} : i ≠ .halt → (Legal s → 32767 < w.toNat) →
      Reason ops i s .addressOutOfRange w
  | divisor {a b c : Operand} : i = .mod a b c → val s c = some 0 → Reason ops i s .divideByZero 0

/-- A fault that the outcome reports has a reason. -/
def Explained (ops : List (Role × Operand)) (i : Instr) (s : State)
    (o : Host.Outcome State Fault Refusal) : Prop :=
  ∀ t c w, o = .next t → t.outcome = some (.fault c w) → Reason ops i s c w

section
variable {ops : List (Role × Operand)} {i : Instr} {s t : State}

theorem explained_raise {c : Cause} {w : Word} (h : Reason ops i s c w) :
    Explained ops i s (raise c w s) := by
  rintro _ c' w' ⟨⟩ ho
  obtain ⟨rfl, rfl⟩ := StepOutcome.fault.inj (Option.some.inj ho)
  exact h

theorem explained_next (h : ∀ c w, t.outcome ≠ some (.fault c w)) :
    Explained ops i s (.next t) := by
  rintro _ c w ⟨⟩ ho
  exact absurd ho (h c w)

theorem explained_guardAddress {n : Nat} {k : Host.Outcome State Fault Refusal} (hi : i ≠ .halt)
    (hn : Legal s → n < 65536) (h : Explained ops i s k) :
    Explained ops i s (guardAddress n s k) := by
  obtain ⟨-, he⟩ | ⟨hgt, he⟩ := guardAddress_cases n s k
  · rw [he]
    exact h
  · rw [he]
    refine explained_raise (.address hi fun hs => ?_)
    rw [BitVec.toNat_ofNat, Nat.mod_eq_of_lt (hn hs)]
    exact hgt

theorem explained_guardValue {v : Word} {k : Host.Outcome State Fault Refusal}
    (hv : 32775 < v.toNat → Reason ops i s .valueOutOfRange v) (h : Explained ops i s k) :
    Explained ops i s (guardValue v s k) := by
  obtain ⟨-, he⟩ | ⟨hgt, he⟩ := guardValue_cases v s k
  · rw [he]
    exact h
  · rw [he]
    exact explained_raise (hv hgt)

/-- A value guard on a value that no legal state lets past 32775. -/
theorem reason_of_legal_le {v : Word} (hv : Legal s → v.toNat ≤ 32775) (h : 32775 < v.toNat) :
    Reason ops i s .valueOutOfRange v :=
  .value fun hs => absurd (hv hs) (Nat.not_le_of_lt h)

theorem nextPc_lt {k : Nat} (hk : k ≤ 3) (hs : Legal s) : nextPc s k < 65536 := by
  obtain ⟨-, -, -, hpc, -⟩ := hs
  unfold nextPc
  omega

theorem explained_commit {npc : Nat} (hi : i ≠ .halt) (hn : Legal s → npc < 65536) :
    Explained ops i s (commit s t npc) :=
  explained_guardAddress hi hn (explained_next (by simp))

theorem explained_commitReg {r : RegIdx} {v : Word} {k : Nat} (hi : i ≠ .halt) (hk : k ≤ 3)
    (hv : 32775 < v.toNat → Reason ops i s .valueOutOfRange v) :
    Explained ops i s (commitReg s t r v (nextPc s k)) :=
  explained_guardValue hv (explained_commit hi (nextPc_lt hk))

/-- An operand that is legal in its position is never the one a fault reports. -/
theorem explained_cons_legal {ρ : Role} {a : Operand} {o : Host.Outcome State Fault Refusal}
    (ha : a.legalAs ρ = true) (h : Explained ops i s o) : Explained ((ρ, a) :: ops) i s o := by
  intro t c w ht ho
  cases h t c w ht ho with
  | operand hw => exact .operand ((firstBadIn_cons_legal ha ops).trans hw)
  | underflow hi hs => exact .underflow hi hs
  | cell hi hx hgt => exact .cell hi hx hgt
  | value hs => exact .value hs
  | address hi hgt => exact .address hi hgt
  | divisor hi hc => exact .divisor hi hc

theorem explained_withSrc {a : Operand} {k : Word → Host.Outcome State Fault Refusal}
    (h : ∀ v, val s a = some v → Explained ops i s (k v)) :
    Explained ((.source, a) :: ops) i s (withSrc a s k) := by
  cases hv : val s a with
  | none =>
    rw [withSrc_none hv]
    exact explained_raise (.operand (firstBadIn_cons_illegal ((val_eq_none s a).mp hv) ops))
  | some v =>
    rw [withSrc_some hv]
    exact explained_cons_legal (legalAs_of_val hv) (h v hv)

theorem explained_withDst {a : Operand} {k : RegIdx → Host.Outcome State Fault Refusal}
    (h : ∀ r, Explained ops i s (k r)) :
    Explained ((.destination, a) :: ops) i s (withDst a s k) := by
  cases hr : dst a with
  | none =>
    rw [withDst_none hr]
    exact explained_raise (.operand (firstBadIn_cons_illegal ((dst_eq_none a).mp hr) ops))
  | some r =>
    rw [withDst_some hr]
    exact explained_cons_legal (reg_of_dst hr ▸ reg_legalAs r _) (h r)

/-- In a legal state a resolved source passes the value guard. -/
theorem reason_of_val {a : Operand} {v : Word} (hv : val s a = some v) (h : 32775 < v.toNat) :
    Reason ops i s .valueOutOfRange v :=
  reason_of_legal_le (fun ⟨hregs, _⟩ => val_le hregs hv) h

end

/-- Every fault of an instruction has a reason. -/
theorem exec_explained (i : Instr) (s : State) : Explained i.operands i s (exec i s) := by
  have hlow {v : Word} {ops : List (Role × Operand)} (hv : v.toNat ≤ 32775)
      (h : 32775 < v.toNat) : Reason ops i s .valueOutOfRange v :=
    reason_of_legal_le (fun _ => hv) h
  cases i with
  | halt => exact explained_next (by simp)
  | noop => exact explained_commit (by simp) (nextPc_lt (by simp))
  | jmp a => exact explained_withSrc fun x _ => explained_commit (by simp) fun _ => x.isLt
  | jt a b | jf a b =>
    refine explained_withSrc fun x _ => explained_withSrc fun y _ =>
      explained_commit (by simp) fun hs => ?_
    split
    · exact y.isLt
    · exact nextPc_lt (by simp) hs
  | out a => exact explained_withSrc fun _ _ => explained_commit (by simp) (nextPc_lt (by simp))
  | push a =>
    exact explained_withSrc fun v hv => explained_guardValue (reason_of_val hv)
      (explained_commit (by simp) (nextPc_lt (by simp)))
  | call a =>
    refine explained_withSrc fun x _ => explained_guardAddress (by simp) (fun _ => x.isLt)
      (explained_guardValue (reason_of_legal_le fun hs => ?_)
        (explained_commit (by simp) fun _ => x.isLt))
    rw [ofNat_nextPc]
    exact returnAddress_le hs
  | wmem a b =>
    exact explained_withSrc fun x _ => explained_withSrc fun v hv =>
      explained_guardAddress (by simp) (fun _ => x.isLt)
        (explained_guardValue (reason_of_val hv)
          (explained_commit (by simp) (nextPc_lt (by simp))))
  | set a b =>
    exact explained_withDst fun _ => explained_withSrc fun v hv =>
      explained_commitReg (by simp) (by simp) (reason_of_val hv)
  | not a b =>
    exact explained_withDst fun _ => explained_withSrc fun x _ =>
      explained_commitReg (by simp) (by simp) (hlow (aluNot_le x))
  | rmem a b =>
    exact explained_withDst fun _ => explained_withSrc fun x hx =>
      explained_guardAddress (by simp) (fun _ => x.isLt)
        (explained_commitReg (by simp) (by simp) (.cell rfl hx))
  | eq a b c | gt a b c =>
    exact explained_withDst fun _ => explained_withSrc fun _ _ => explained_withSrc fun _ _ =>
      explained_commitReg (by simp) (by simp) (hlow (truthWord_le _))
  | add a b c | mult a b c | and a b c | or a b c =>
    exact explained_withDst fun _ => explained_withSrc fun _ _ => explained_withSrc fun _ _ =>
      explained_commitReg (by simp) (by simp) (hlow (reduce_le _))
  | mod a b c =>
    refine explained_withDst fun _ => explained_withSrc fun _ _ => explained_withSrc fun y hy => ?_
    by_cases hy0 : y.toNat = 0
    · rw [if_pos hy0]
      obtain rfl : y = 0 := BitVec.eq_of_toNat_eq hy0
      exact explained_raise (.divisor rfl hy)
    · rw [if_neg hy0]
      exact explained_commitReg (by simp) (by simp) (hlow (reduce_le _))
  | pop a =>
    refine explained_withDst fun _ => ?_
    cases ht : s.top with
    | none => exact explained_raise (.underflow (.inl ⟨a, rfl⟩) (stack_eq_nil_of_top ht))
    | some v =>
      exact explained_commitReg (by simp) (by simp)
        (reason_of_legal_le (top_le (stack_of_top ht)))
  | ret =>
    show Explained _ _ s (execRet s)
    unfold execRet
    cases ht : s.top with
    | none => exact explained_raise (.underflow (.inr rfl) (stack_eq_nil_of_top ht))
    | some v => exact explained_commit (by simp) fun _ => v.isLt
  | inp a =>
    refine explained_withDst fun _ => explained_guardAddress (by simp) (nextPc_lt (by simp)) ?_
    cases s.input with
    | nil => exact explained_next (by simp)
    | cons ch rest =>
      exact explained_commitReg (by simp) (by simp) (hlow (by bv_omega))

/-- Settles O31: in a legal state the reasons that need an illegal one are left out. -/
theorem faultCausesByInstruction : Obligations.FaultCausesByInstruction := by
  intro i s t c w hs h ho
  cases exec_explained i s t c w h ho with
  | operand hw => exact (firstBadIn_operands i).symm.trans hw
  | underflow hi hstack => exact ⟨hi, hstack, rfl⟩
  | cell hi hx hgt => exact ⟨_, _, _, hi, hx, rfl, hgt⟩
  | value hill => exact absurd hs hill
  | address hi hgt => exact ⟨hi, hgt hs⟩
  | divisor hi hc => exact ⟨_, _, _, hi, hc, rfl⟩

theorem firstBadOperand_eq_none_iff (i : Instr) :
    firstBadOperand i = none ↔ i.wellFormed = true := by
  simp [firstBadOperand, Instr.wellFormed]

/-- Settles O14: the fault by resolution in memory order, its absence because the fault has no other reason. -/
theorem firstIllegalOperandFaults : Obligations.FirstIllegalOperandFaults := by
  intro i s
  refine ⟨exec_blames i s, firstBadOperand_eq_none_iff i, fun hwf t w h ho => ?_⟩
  cases exec_explained i s t .invalidOperand w h ho with
  | operand hw => nomatch ((firstBadOperand_eq_none_iff i).mpr hwf).symm.trans hw

end Sys2Proof.Machine
end

section
/-! SUPPORT. The run loop (spec/60_exceptions.md R242, R243), step by step. -/
namespace Sys2Proof.Machine

section
variable {s t : State} (h : step s = .next t) (n : Nat)
include h

/-- After a retired instruction the run goes on with the rest of the budget. -/
theorem run_succ_retired (ho : t.outcome = some .retired) : run (n + 1) s = run n t := by
  simp only [run, h, if_pos ho]

/-- Any other report ends the run. -/
theorem run_succ_stopped (ho : t.outcome ≠ some .retired) :
    run (n + 1) s = .next (t, .stepStopped) := by
  simp only [run, h, if_neg ho]

end

theorem exists_step_eq_next (s : State) : ∃ t, step s = .next t := by
  obtain ⟨hstep, -⟩ := everyStepHasANextState
  obtain ⟨t, -, h, -⟩ := hstep s
  exact ⟨t, h⟩

theorem of_next_pair_eq {s t : State} {e d : RunEnd}
    (h : (.next (s, e) : Host.Outcome (State × RunEnd) Fault Refusal) = .next (t, d)) :
    s = t ∧ e = d :=
  Prod.mk.inj (Host.Outcome.next.inj h)

/-- Settles O33, by induction on the first budget: both runs make the same first step. -/
theorem budgetsAdd : Obligations.BudgetsAdd := by
  intro n m s
  induction n generalizing s with
  | zero =>
    refine ⟨fun t h => ?_, fun t h => nomatch (of_next_pair_eq h).right⟩
    obtain ⟨rfl, -⟩ := of_next_pair_eq h
    rw [Nat.zero_add]
  | succ n ih =>
    obtain ⟨u, hu⟩ := exists_step_eq_next s
    rw [Nat.add_right_comm]
    by_cases ho : u.outcome = some .retired
    · rw [run_succ_retired hu n ho, run_succ_retired hu (n + m) ho]
      exact ih u
    · rw [run_succ_stopped hu n ho, run_succ_stopped hu (n + m) ho]
      exact ⟨fun t h => (nomatch (of_next_pair_eq h).right), fun t h => h⟩

/-- A step that reports `Retired` counts one instruction and leaves the halted flag as it was (R29, R27). -/
theorem step_retired {s t : State} (h : step s = .next t) (ho : t.outcome = some .retired) :
    t.icount = s.icount + 1 ∧ t.halted = s.halted := by
  obtain ⟨hcount, -⟩ := instructionCounterRule s t h
  obtain ⟨hhalted, -⟩ := haltedFlagRule s t h
  refine ⟨hcount (.inl ho), Bool.eq_iff_iff.mpr ?_⟩
  simpa [ho] using hhalted

/-- A step counts at most one instruction. -/
theorem step_icount_le {s t : State} (h : step s = .next t) :
    s.icount ≤ t.icount ∧ t.icount ≤ s.icount + 1 := by
  obtain ⟨-, rfl⟩ | ⟨-, i, hc⟩ := step_change h
  · simp
  · obtain ⟨hcounts, hnot⟩ := change_icount hc
    by_cases ho : Counts t.outcome
    · have := hcounts ho
      omega
    · have := hnot ho
      omega

theorem run_limit {n : Nat} {s t : State} (h : run n s = .next (t, .executionLimitExceeded)) :
    t.icount = s.icount + n ∧ t.halted = s.halted ∧ (0 < n → t.outcome = some .retired) := by
  induction n generalizing s with
  | zero =>
    obtain ⟨rfl, -⟩ := of_next_pair_eq h
    exact ⟨rfl, rfl, nofun⟩
  | succ n ih =>
    obtain ⟨u, hu⟩ := exists_step_eq_next s
    by_cases ho : u.outcome = some .retired
    · rw [run_succ_retired hu n ho] at h
      obtain ⟨hcount, hhalted, hout⟩ := ih h
      obtain ⟨hcount₁, hhalted₁⟩ := step_retired hu ho
      refine ⟨by omega, hhalted.trans hhalted₁, fun _ => ?_⟩
      rcases n with _ | n
      · obtain ⟨rfl, -⟩ := of_next_pair_eq h
        exact ho
      · exact hout n.succ_pos
    · rw [run_succ_stopped hu n ho] at h
      nomatch (of_next_pair_eq h).right

theorem run_stopped {n : Nat} {s t : State} (h : run n s = .next (t, .stepStopped)) :
    t.outcome ≠ some .retired ∧ s.icount ≤ t.icount ∧ t.icount ≤ s.icount + n := by
  induction n generalizing s with
  | zero => nomatch (of_next_pair_eq h).right
  | succ n ih =>
    obtain ⟨u, hu⟩ := exists_step_eq_next s
    obtain ⟨hlo, hhi⟩ := step_icount_le hu
    by_cases ho : u.outcome = some .retired
    · rw [run_succ_retired hu n ho] at h
      obtain ⟨hout, hlo', hhi'⟩ := ih h
      exact ⟨hout, by omega, by omega⟩
    · rw [run_succ_stopped hu n ho] at h
      obtain ⟨rfl, -⟩ := of_next_pair_eq h
      exact ⟨ho, hlo, by omega⟩

theorem exists_run_eq_next (n : Nat) (s : State) : ∃ t e, run n s = .next (t, e) := by
  induction n generalizing s with
  | zero => exact ⟨s, _, rfl⟩
  | succ n ih =>
    obtain ⟨u, hu⟩ := exists_step_eq_next s
    by_cases ho : u.outcome = some .retired
    · rw [run_succ_retired hu n ho]
      exact ih u
    · exact ⟨u, _, run_succ_stopped hu n ho⟩

/-- Settles O34, each clause by induction on the budget. -/
theorem budgetCountsRetiredInstructions : Obligations.BudgetCountsRetiredInstructions :=
  ⟨fun _ => rfl, fun _ _ _ => run_limit, fun _ _ _ => run_stopped, exists_run_eq_next⟩

end Sys2Proof.Machine
end

section
/-! SUPPORT. The image load and the host's port (spec/70_reset_and_hazards.md R261 to R266). -/
namespace Sys2Proof.Machine

theorem toNat_wordOfBytes (lo hi : Byte) :
    (wordOfBytes lo hi).toNat = lo.toNat + 256 * hi.toNat := by
  have hlo : lo.toNat < 2 ^ 8 := lo.isLt
  rw [wordOfBytes, BitVec.toNat_append, ← Nat.shiftLeft_add_eq_or_of_lt hlo, Nat.shiftLeft_eq]
  omega

/-- A cell of an image's memory is two bytes of the image, low byte first (R52), filled up with 0 (R262). -/
theorem wordAt_ofImage (bytes : List Byte) (i : Nat) :
    (Memory.ofImage 0 bytes).wordAt i =
      wordOfBytes (bytes.getD (2 * i) 0) (bytes.getD (2 * i + 1) 0) := by
  simp [Memory.wordAt, byteAt_ofImage]

/-- Settles O35. -/
theorem imageLoad : Obligations.ImageLoad := by
  refine fun bytes => ⟨bootImage_eq_none, fun he hl => ⟨_, bootImage_eq_some he hl, rfl,
    wf_ofImage (by omega), fun i lo hi hlo hhi => ?_, fun i hi => ?_⟩⟩
  · simp only [wordAt_ofImage, List.getD_eq_getElem?_getD, hlo, hhi, Option.getD_some]
    exact toNat_wordOfBytes lo hi
  · simp only [wordAt_ofImage, List.getD_eq_default _ _ hi,
      List.getD_eq_default _ _ (Nat.le_succ_of_le hi)]
    rfl

/-- Settles O36. -/
theorem hostRegisterPort : Obligations.HostRegisterPort := by
  intro s index value
  refine ⟨fun h => dif_pos h, fun h => ⟨dif_neg (by omega), registerSet_eq_none (.inl h)⟩,
    fun h => registerSet_eq_none (.inr h), fun h hv => ⟨_, registerSet_eq_some h hv, ?_, ?_, rfl⟩⟩
  · exact reg_setReg_self s ⟨index, h⟩ value
  · exact fun q hq => reg_setReg_ne s value fun he => hq (congrArg Fin.val he.symm)

/-- Settles O37. -/
theorem hostMemoryPort : Obligations.HostMemoryPort := by
  intro s address value hwf
  refine ⟨fun h => if_pos h, fun h => ⟨if_neg (Nat.not_le_of_lt h), memoryWrite_eq_none (.inl h)⟩,
    fun h => memoryWrite_eq_none (.inr h), fun h hv => ⟨_, memoryWrite_eq_some h hv, ?_, ?_, rfl⟩⟩
  · exact wordAt_setWord_self value hwf h
  · exact fun n hn => wordAt_setWord_ne value hwf h hn

end Sys2Proof.Machine
end

section
/-! SUPPORT. `halt`, and the instructions that commit at the sequential successor, once their operands are
resolved (spec/41_halt_noop.md R130, 42_set_push_pop.md R140, R141, 43_eq_gt.md R151, 44_jmp_jt_jf.md R161,
46_rmem_wmem.md R190, 48_out_in.md R210, R211). -/
namespace Sys2Proof.Machine

/-- Settles O38: the next `pc` is not checked (R114). -/
theorem haltRule : Obligations.HaltRule := by
  refine ⟨rfl, fun s => ?_⟩
  show retireHalt s = _
  rw [retireHalt, State.setPc, ofNat_nextPc]
  rfl

/-- The commit at the sequential successor, inside memory and at its top (R113, R114): `commitReg_sequential`
without a register write. -/
theorem commit_sequential {o : Host.Outcome State Fault Refusal} {s t : State} {k : Nat}
    (ho : o = commit s t (nextPc s k)) :
    (s.pc.toNat + (k + 1) ≤ 32767 → o = .next { t with
      pc := s.pc + BitVec.ofNat 16 (k + 1), icount := t.icount + 1, outcome := some .retired }) ∧
    (s.pc.toNat + (k + 1) = 32768 → o = .next (faulted .addressOutOfRange 32768 s)) :=
  ⟨fun h => ho.trans (commit_next h), fun h => ho.trans (commit_next_top h)⟩

section
variable {a b : Operand} {s : State} {r : RegIdx} {v : Word}

theorem exec_set_resolved (hr : dst a = some r) (hv : val s b = some v) :
    exec (.set a b) s = commitReg s s r v (nextPc s 2) := by
  show withDst a s _ = _
  rw [withDst_some hr, withSrc_some hv]

/-- In a legal state the value pushed is in the write range (R112). -/
theorem exec_push_resolved (hs : Legal s) (hv : val s a = some v) :
    exec (.push a) s = commit s (s.push v) (nextPc s 1) := by
  obtain ⟨hregs, -⟩ := hs
  show withSrc a s _ = _
  rw [withSrc_some hv, guardValue_le (val_le hregs hv)]

theorem exec_out_resolved (hv : val s a = some v) :
    exec (.out a) s = commit s (s.emit (BitVec.ofNat 8 (v.toNat % 256))) (nextPc s 1) := by
  have hlow : lowByte v = BitVec.ofNat 8 (v.toNat % 256) := by
    apply BitVec.eq_of_toNat_eq
    simp [lowByte]
  show withSrc a s _ = _
  rw [withSrc_some hv, hlow]

end

/-- Settles O39. -/
theorem setRule : Obligations.SetRule := fun a b =>
  ⟨commonRules (.set a b), fun _ _ _ ⟨hregs, _⟩ hr hv =>
    commitReg_sequential (exec_set_resolved hr hv) (val_le hregs hv)⟩

/-- Settles O40. -/
theorem pushRule : Obligations.PushRule := fun a =>
  ⟨commonRules (.push a), fun _ _ hs hv => commit_sequential (exec_push_resolved hs hv)⟩

/-- Settles O57. -/
theorem outRule : Obligations.OutRule := fun a =>
  ⟨commonRules (.out a), fun _ _ hv => commit_sequential (exec_out_resolved hv)⟩

/-- On resolved operands `gt` is the commit of one register write (R152). -/
theorem exec_gt_resolved {a b c : Operand} {s : State} {r : RegIdx} {x y : Word}
    (hr : dst a = some r) (hx : val s b = some x) (hy : val s c = some y) :
    exec (.gt a b c) s = commitReg s s r (if y.toNat < x.toNat then 1 else 0) (nextPc s 3) :=
  truthWord_decide (y.toNat < x.toNat) ▸ withDst_withSrc_withSrc_some hr hx hy _

/-- Settles O43. -/
theorem gtRule : Obligations.GtRule := fun a b c =>
  ⟨commonRules (.gt a b c), fun _ _ x y hr hx hy =>
    commitReg_sequential (exec_gt_resolved hr hx hy) (truth_le (y.toNat < x.toNat))⟩

section
variable {a b : Operand} {s : State} {x target : Word}
  (hx : val s a = some x) (ht : val s b = some target)
include hx ht

theorem exec_jt_resolved :
    exec (.jt a b) s = commit s s (if x.toNat ≠ 0 then target.toNat else nextPc s 2) := by
  show withSrc a s _ = _
  rw [withSrc_some hx, withSrc_some ht]

theorem exec_jt_taken (h : x ≠ 0) : exec (.jt a b) s = commit s s target.toNat := by
  have hx0 : x.toNat ≠ 0 := fun h0 => h (BitVec.eq_of_toNat_eq h0)
  rw [exec_jt_resolved hx ht, if_pos hx0]

theorem exec_jt_not_taken (h : x = 0) : exec (.jt a b) s = commit s s (nextPc s 2) := by
  have hx0 : x.toNat = 0 := congrArg BitVec.toNat h
  rw [exec_jt_resolved hx ht, if_neg (not_not.mpr hx0)]

end

/-- Settles O45: the taken jump commits at its target (R163), the other at the sequential successor. -/
theorem jtRule : Obligations.JtRule := by
  refine fun a b => ⟨commonRules (.jt a b), fun s x target hx ht => ?_⟩
  have hnext (h : x = 0) := commit_sequential (exec_jt_not_taken hx ht h)
  exact ⟨fun h hle => (exec_jt_taken hx ht h).trans (commit_target hle),
    fun h hgt => (exec_jt_taken hx ht h).trans (commit_target_out hgt),
    fun h => (hnext h).left, fun h => (hnext h).right⟩

section
variable {a b : Operand} {s : State} {r : RegIdx} {x : Word}
  (hr : dst a = some r) (hx : val s b = some x)
include hr hx

theorem exec_rmem_resolved :
    exec (.rmem a b) s =
      guardAddress x.toNat s (commitReg s s r (s.mem.wordAt x.toNat) (nextPc s 2)) := by
  show withDst a s _ = _
  rw [withDst_some hr, withSrc_some hx]

theorem exec_rmem_address_out (h : 32767 < x.toNat) :
    exec (.rmem a b) s = .next (faulted .addressOutOfRange x s) := by
  rw [exec_rmem_resolved hr hx, guardAddress_gt h, BitVec.ofNat_toNat, BitVec.setWidth_eq]

/-- At an address inside memory `rmem` is the commit of one register write. -/
theorem exec_rmem_load (h : x.toNat ≤ 32767) :
    exec (.rmem a b) s = commitReg s s r (s.mem.wordAt x.toNat) (nextPc s 2) :=
  (exec_rmem_resolved hr hx).trans (guardAddress_le h s _)

end

/-- Settles O53: the address, then the value, then the next `pc` (R190). -/
theorem rmemRule : Obligations.RmemRule := by
  refine fun a b => ⟨commonRules (.rmem a b), fun s r x hr hx =>
    ⟨exec_rmem_address_out hr hx, ?_⟩⟩
  rintro _ hle rfl
  have hload := exec_rmem_load hr hx hle
  exact ⟨fun hgt => hload.trans (guardValue_gt hgt s _),
    fun hv => (commitReg_sequential hload hv).left,
    fun hv => (commitReg_sequential hload hv).right⟩

section
variable {a : Operand} {s : State} {r : RegIdx} (hr : dst a = some r)
include hr

/-- The next `pc` is checked before the queue is looked at (R118). -/
theorem exec_inp_top (h : s.pc.toNat + 2 = 32768) :
    exec (.inp a) s = .next (faulted .addressOutOfRange 32768 s) := by
  have hn : nextPc s 1 = 32768 := h
  show withDst a s _ = _
  rw [withDst_some hr, guardAddress_gt (by omega), hn]
  rfl

theorem exec_inp_of_nil (hin : s.input = []) (h : s.pc.toNat + 2 ≤ 32767) :
    exec (.inp a) s = .next (s.report .inputWait) := by
  show withDst a s _ = _
  rw [withDst_some hr, guardAddress_le (n := nextPc s 1) h, hin]
  rfl

/-- With a character waiting `in` is the commit of its removal and of one register write. -/
theorem exec_inp_of_cons {ch : Byte} {rest : List Byte} (hin : s.input = ch :: rest)
    (h : s.pc.toNat + 2 ≤ 32767) :
    exec (.inp a) s =
      commitReg s { s with input := rest } r (BitVec.ofNat 16 ch.toNat) (nextPc s 1) := by
  have hch : BitVec.ofNat 16 ch.toNat = ch.setWidth 16 := BitVec.ofNat_toNat 16 ch
  show withDst a s _ = _
  rw [withDst_some hr, guardAddress_le (n := nextPc s 1) h, hin]
  simp only [State.dropInput, hin, List.tail_cons, hch]

end

/-- Settles O58: a character has 8 bits, so it is in the write range (R112). -/
theorem inRule : Obligations.InRule := by
  refine fun a => ⟨commonRules (.inp a), fun s r hr =>
    ⟨fun ch rest hin hpc => ?_, exec_inp_of_nil hr, exec_inp_top hr⟩⟩
  have hch : (BitVec.ofNat 16 ch.toNat).toNat ≤ 32775 := by bv_omega
  exact (exec_inp_of_cons hr hin hpc).trans (commitReg_next hch hpc)

end Sys2Proof.Machine
end
